-- ==== Sys2Proof/Word.lean ====
section
/-! DEFINITION. The two element widths of the block: a character and every 8-bit register
(spec 20_memory.md R61, parameters CW and DLW of 00_scope.md R9), and the 64-bit value (VW). -/

namespace Sys2Proof

/-- One character, one 8-bit register, one command word (00_scope.md R9 `CW`, 20_memory.md R61). -/
abbrev Byte := BitVec 8

/-- The 64-bit value, VIN and VOUT (00_scope.md R9 `VW`, 40_arith_check.md R120). -/
abbrev Word := BitVec 64

end Sys2Proof
end

