-- ==== Sys2Proof/Config.lean ====
section
/-! DEFINITION. What one implementation of the block fixes (the open parameters of 00_scope.md R9)
and the one free value of the spec (the read of a result register during an operation). -/

namespace Sys2Proof

/-- The open parameters of 00_scope.md R9 that the model needs. PLATFORM_BUS is not needed
(10_state.md R51). DESIGN CHOICE, safe: they are data of the state, so a statement about every
state is about every setting (log 4). -/
structure Config where
  /-- `LMAX`, the slots of the decoder input buffer IBUF: any integer from 14 to 255. -/
  lmax : Nat
  /-- `P_NODATA_IS_ZERO`: whether a decode with no data symbol has the legacy result 0. -/
  nodataIsZero : Bool
deriving DecidableEq, Repr

/-- The spec's default setting: LMAX = 32, P_NODATA_IS_ZERO = 0 (00_scope.md R9). -/
def Config.default : Config := { lmax := 32, nodataIsZero := false }

/-- The value HOST gets when it reads a result register or an OBUF slot while STATUS.BUSY = 1
(10_state.md R45, 93_implementation_defined.md U1): any value, a fresh one per read, here the
`n`-th one drawn. A FREE VALUE: it has no body on purpose (log 3). -/
opaque Config.freeRead : Nat → Word

end Sys2Proof
end

