-- ==== Sys2Proof/Syntax.lean ====
section
/-! DEFINITION. The operations of the command word, one constructor per row of
spec/opcode_table.json (30_encoding.md R100 to R103). -/

namespace Sys2Proof

/-- One operation of the block. `cs` is the check symbol flag, `sg` the signed operand flag
(30_encoding.md R100). The six rows of illegal bytes are operations too: each starts and completes
(R103). Such a row carries the byte HOST wrote, whose bits outside the row's mask are don't-cares
(DESIGN CHOICE, safe, log 15); `Instr.wellFormed` says that the byte lies in the row. -/
inductive Instr where
  /-- ENC: encode VIN (41_encode.md R141). -/
  | enc (cs sg : Bool)
  /-- ENCB: encode VIN for a destination of DLEN slots (41_encode.md R146). -/
  | encb (cs sg : Bool)
  /-- DEC: decode the ILEN characters of IBUF (42_decode.md R171). -/
  | dec (cs : Bool)
  /-- Row ILLEGAL.RESERVED_OP: bits 7:4 zero and OP = 0b11. -/
  | illegalReservedOp (c : Byte)
  /-- Row ILLEGAL.DEC_SG: bits 7:4 zero, OP = 0b10 and SG = 1. -/
  | illegalDecSg (c : Byte)
  /-- Row ILLEGAL.RESERVED_BITS.b7: bit 7 set. -/
  | illegalReservedB7 (c : Byte)
  /-- Row ILLEGAL.RESERVED_BITS.b6: bit 6 is the highest set reserved bit. -/
  | illegalReservedB6 (c : Byte)
  /-- Row ILLEGAL.RESERVED_BITS.b5: bit 5 is the highest set reserved bit. -/
  | illegalReservedB5 (c : Byte)
  /-- Row ILLEGAL.RESERVED_BITS.b4: bit 4 is the highest set reserved bit. -/
  | illegalReservedB4 (c : Byte)
deriving DecidableEq, Repr

end Sys2Proof
end

