-- ==== Sys2Proof/WellFormed.lean ====
section
/-! DEFINITION. Which terms of the syntax stand for a command byte, and which parameter settings the
spec allows. -/

namespace Sys2Proof

/-- A byte lies in a row of the opcode table: `c & mask = value` (30_encoding.md R103). -/
def inRow (mask value c : Byte) : Bool := c &&& mask == value

/-- A legal operation is well-formed with every flag; an illegal row's byte must lie in its row
(the match and mask pairs of spec/opcode_table.json, 30_encoding.md R103). -/
def Instr.wellFormed : Instr → Bool
  | .enc _ _ => true
  | .encb _ _ => true
  | .dec _ => true
  | .illegalReservedOp c => inRow 0xF3 0x03 c
  | .illegalDecSg c => inRow 0xFB 0x0A c
  | .illegalReservedB7 c => inRow 0x80 0x80 c
  | .illegalReservedB6 c => inRow 0xC0 0x40 c
  | .illegalReservedB5 c => inRow 0xE0 0x20 c
  | .illegalReservedB4 c => inRow 0xF0 0x10 c

/-- The settings 00_scope.md R9 allows: 14 <= LMAX <= 255; both values of P_NODATA_IS_ZERO. -/
def Config.wellFormed (cfg : Config) : Bool := decide (14 ≤ cfg.lmax) && decide (cfg.lmax ≤ 255)

end Sys2Proof
end

