-- ==== Sys2Proof/Decode.lean ====
section
/-! DEFINITION. The decoder of the command word (30_encoding.md R100 to R104) and, after it, the
encoder, both written from the bit fields of R100. -/

namespace Sys2Proof

/-- OP, bits 1:0 of the command word (30_encoding.md R100). -/
def opField (c : Byte) : BitVec 2 := c.extractLsb' 0 2

/-- CS, bit 2 (30_encoding.md R100). -/
def csField (c : Byte) : Bool := c.getLsbD 2

/-- SG, bit 3 (30_encoding.md R100). -/
def sgField (c : Byte) : Bool := c.getLsbD 3

/-- The operation a command byte selects. Every byte selects exactly one row, in the order of test
of 30_encoding.md R103 and R104: reserved bits first (by the highest one set, as the opcode table
splits them), then OP = 0b11, then SG on DEC, then the three legal operations. -/
def decode (c : Byte) : Instr :=
  if c.getLsbD 7 then .illegalReservedB7 c
  else if c.getLsbD 6 then .illegalReservedB6 c
  else if c.getLsbD 5 then .illegalReservedB5 c
  else if c.getLsbD 4 then .illegalReservedB4 c
  else if opField c = 3 then .illegalReservedOp c
  else if opField c = 2 ∧ sgField c = true then .illegalDecSg c
  else if opField c = 0 then .enc (csField c) (sgField c)
  else if opField c = 1 then .encb (csField c) (sgField c)
  else .dec (csField c)

/-- Why a sequence of bytes is no command. All 256 bytes are commands (30_encoding.md R103), so a
missing byte is the only reason. -/
inductive DecodeError where
  /-- There is no byte: a command is one byte, of one format (30_encoding.md R105). -/
  | noCommandByte
deriving DecidableEq, Repr

/-- One command from the front of a byte sequence, with the rest: one byte, one format, no prefixed
or longer form (30_encoding.md R105). -/
def decodeBytes : List Byte → Except DecodeError (Instr × List Byte)
  | [] => .error .noCommandByte
  | c :: rest => .ok (decode c, rest)

/-- The byte whose fields are those of 30_encoding.md R100, bits 7:4 zero. -/
def commandByte (op : BitVec 2) (cs sg : Bool) : Byte :=
  (0 : BitVec 4) ++ BitVec.ofBool sg ++ BitVec.ofBool cs ++ op

/-- The command byte of an operation (30_encoding.md R102); an illegal row is the byte it carries. -/
def encode : Instr → Byte
  | .enc cs sg => commandByte 0 cs sg
  | .encb cs sg => commandByte 1 cs sg
  | .dec cs => commandByte 2 cs false
  | .illegalReservedOp c => c
  | .illegalDecSg c => c
  | .illegalReservedB7 c => c
  | .illegalReservedB6 c => c
  | .illegalReservedB5 c => c
  | .illegalReservedB4 c => c

/-- The operation of one opcode-table word: the command word is one byte (30_encoding.md R100), so
`nbits` is 8 and `w` is that byte. -/
def decodeTableWord (nbits w : Nat) : Option Instr :=
  if nbits = 8 ∧ w < 256 then
    match decodeBytes [BitVec.ofNat 8 w] with
    | .ok (i, []) => some i
    | .ok (_, _ :: _) => none
    | .error _ => none
  else none

/-- One row of spec/opcode_table.json: its mnemonic, mask and match. -/
structure OpcodeRow where
  mnemonic : String
  mask : Byte
  value : Byte
deriving DecidableEq, Repr

/-- Whether a byte lies in a row (30_encoding.md R103). -/
def OpcodeRow.holds (r : OpcodeRow) (c : Byte) : Bool := inRow r.mask r.value c

/-- The nine rows of spec/opcode_table.json, in the table's order. -/
def opcodeTable : List OpcodeRow :=
  [ { mnemonic := "ENC", mask := 0xF3, value := 0x00 },
    { mnemonic := "ENCB", mask := 0xF3, value := 0x01 },
    { mnemonic := "DEC", mask := 0xFB, value := 0x02 },
    { mnemonic := "ILLEGAL.RESERVED_OP", mask := 0xF3, value := 0x03 },
    { mnemonic := "ILLEGAL.DEC_SG", mask := 0xFB, value := 0x0A },
    { mnemonic := "ILLEGAL.RESERVED_BITS.b7", mask := 0x80, value := 0x80 },
    { mnemonic := "ILLEGAL.RESERVED_BITS.b6", mask := 0xC0, value := 0x40 },
    { mnemonic := "ILLEGAL.RESERVED_BITS.b5", mask := 0xE0, value := 0x20 },
    { mnemonic := "ILLEGAL.RESERVED_BITS.b4", mask := 0xF0, value := 0x10 } ]

/-- The mnemonic of an operation's row in spec/opcode_table.json. -/
def Instr.mnemonic : Instr → String
  | .enc _ _ => "ENC"
  | .encb _ _ => "ENCB"
  | .dec _ => "DEC"
  | .illegalReservedOp _ => "ILLEGAL.RESERVED_OP"
  | .illegalDecSg _ => "ILLEGAL.DEC_SG"
  | .illegalReservedB7 _ => "ILLEGAL.RESERVED_BITS.b7"
  | .illegalReservedB6 _ => "ILLEGAL.RESERVED_BITS.b6"
  | .illegalReservedB5 _ => "ILLEGAL.RESERVED_BITS.b5"
  | .illegalReservedB4 _ => "ILLEGAL.RESERVED_BITS.b4"

/-- Whether an operation is one of the ten legal ones (30_encoding.md R102). -/
def Instr.legal : Instr → Bool
  | .enc _ _ => true
  | .encb _ _ => true
  | .dec _ => true
  | .illegalReservedOp _ => false
  | .illegalDecSg _ => false
  | .illegalReservedB7 _ => false
  | .illegalReservedB6 _ => false
  | .illegalReservedB5 _ => false
  | .illegalReservedB4 _ => false

end Sys2Proof
end

