-- ==== Sys2Proof/Machine/State.lean ====
section
/-! DEFINITION. The state of the machine as plain data: the block's thirteen registers and two symbol
buffers (10_state.md R20), its open parameters (00_scope.md R9), and HOST's side: what HOST is going to
do, what it has read, and which agent moves next. Also the reasons a step can stop, and the reset
state. -/

namespace Sys2Proof.Machine

/-- A symbol buffer, IBUF or OBUF: (index, byte) pairs, indices strictly rising, no entry 0x00.
An index that is not listed reads 0x00, the reset contents the spec gives (10_state.md R36, R37, R47). -/
abbrev Memory := List Host.Cell

/-- The canonical form, on a list whose indices must all be at least `lo`. -/
def Memory.wfFrom : Nat → Memory → Bool
  | _, [] => true
  | lo, (a, b) :: rest => decide (lo ≤ a) && decide (b ≠ 0#8) && Memory.wfFrom (a + 1) rest

/-- The canonical form of a buffer: indices strictly rising, no entry equal to 0x00. -/
def Memory.wf (m : Memory) : Bool := Memory.wfFrom 0 m

/-- Every listed index lies below `n`, the number of the buffer's slots. -/
def Memory.below (n : Nat) (m : Memory) : Bool := m.all fun c => decide (c.1 < n)

/-- The registers of the block, in the order of their numbers (10_state.md R39): REG:0 is CMD,
REG:12 is ECAUSE. -/
inductive Reg where
  | cmd | status | vin | dlen | ilen | vout | ostart | olen | epos | echr | ckcalc | cksym | ecause
deriving DecidableEq, Repr

/-- An address HOST can present: a space and an index (20_memory.md R60, R62). -/
inductive HostAddr where
  /-- REG:n, by the register's name. -/
  | reg (r : Reg)
  /-- IBUF:i. -/
  | ibuf (i : Nat)
  /-- OBUF:i. -/
  | obuf (i : Nat)
deriving DecidableEq, Repr

/-- Which result a consumer reads once it has seen STATUS.OK = 1 (30_encoding.md R108). -/
inductive ResultKind where
  /-- TRYENC: OSTART, OLEN and the populated region of OBUF. -/
  | encoded
  /-- TRYDEC: VOUT. -/
  | decoded
deriving DecidableEq, Repr

/-- One item of HOST's program (30_encoding.md R107, R108; logs 1, 9, 10). The forms after `wait` are
how HOST's data-dependent programs are held as plain data: what HOST does next depends on a value it
read. -/
inductive HostStep where
  /-- `RD addr`: one read. -/
  | rd (a : HostAddr)
  /-- `WR addr, value`: one write. -/
  | wr (a : HostAddr) (v : Word)
  /-- `WR addr, value read`: one write of the value HOST read last. -/
  | wrLast (a : HostAddr)
  /-- `WAIT`: `RD REG:1`, again and again until the value read has bit 1, DONE, set. -/
  | wait
  /-- `RD REG:7`, which gives n, then `RD OBUF:j` for j from 14 - n to 13 (70_reset_and_hazards.md R259). -/
  | readString
  /-- `COPYOUT`. -/
  | copyOut
  /-- `RD REG:1`, then the result registers if the value read has bit 2, OK, set. -/
  | ifOk (k : ResultKind)
  /-- The input `rst` is asserted (10_state.md R47, R50). -/
  | rst
deriving DecidableEq, Repr

/-- The two agents (00_scope.md R7). -/
inductive Agent where
  | host
  | engine
deriving DecidableEq, Repr

/-- The error kinds of 60_exceptions.md R210. -/
inductive ErrKind where
  | invalidArgument
  | bufferTooSmall
  | symbolOutOfRange
  | checksumMismatch
  | illegalCommand
deriving DecidableEq, Repr

/-- Why an operation failed, with what its diagnostic registers take (60_exceptions.md R211, one
constructor per cause 1 to 11). These are values in the completion record, not faults (R222). -/
inductive Failure where
  | negValue
  | emptyInput
  | noData
  | noCheckSymbol
  | destTooSmall
  | dataSymbol (pos chr : Byte)
  | checkSymbol (pos chr : Byte)
  | checkMismatch (computed symbol : Byte)
  | reservedOp
  | reservedBits
  | badIlen
deriving DecidableEq, Repr

/-- What one completion writes: every result register (10_state.md R39, 60_exceptions.md R213). -/
structure Completion where
  status : Byte
  vout : Word
  ostart : Byte
  olen : Byte
  epos : Byte
  echr : Byte
  ckcalc : Byte
  cksym : Byte
  ecause : Byte
  obuf : Memory
deriving DecidableEq, Repr

/-- Why the machine stops. There is no constructor: none of the block's errors is a fault, each is a
value in the completion record after which the block goes on (60_exceptions.md R215, R222). Nobody
raises one, which is neither unsafe nor a gap: the spec names no behaviour that stops an agent. -/
inductive Fault where
deriving DecidableEq, Repr

/-- Why a step is not modelled. Every constructor in use is about HOST's program, never about an
operation of the block. -/
inductive Refusal where
  /-- An operation with no meaning yet. Raised by no arm of `exec`; safe. -/
  | notModelled (mnemonic : String)
  /-- HOST used an address that 20_memory.md R62 does not list. Raised by HOST's steps; safe: the
  spec has a model refuse such a host program (93_implementation_defined.md U4, log 7). -/
  | unmappedAddress (a : HostAddr)
  /-- HOST presented a value wider than the addressed element. Raised by HOST's writes; safe: an
  access has the full width of the element (10_state.md R51, log 6). -/
  | valueTooWide (a : HostAddr) (v : Word)
  /-- HOST's program writes the value it read last and has read none. Raised by `wrLast`; safe: no
  step of 30_encoding.md R107 means this (log 9). -/
  | noValueRead (a : HostAddr)
  /-- HOST's program walks a string of more than 14 symbols, a length only an unspecified read
  during an operation can give. Raised by `readString` and `copyOut`; safe: the spec lets a model
  refuse a host program that reads OLEN then (93_implementation_defined.md U1, log 9). -/
  | stringTooLong (n : Nat)
deriving DecidableEq, Repr

/-- The state. The first group is the block (10_state.md R20), the second its open parameters
(00_scope.md R9), the third HOST's side and the schedule (logs 1 to 3). -/
structure State where
  /-- CMD, REG:0 (10_state.md R23). -/
  cmd : Byte
  /-- STATUS, REG:1 (10_state.md R24); its fields are in Machine/Flags.lean. -/
  status : Byte
  /-- VIN, REG:2 (10_state.md R25). -/
  vin : Word
  /-- DLEN, REG:3 (10_state.md R26). -/
  dlen : Byte
  /-- ILEN, REG:4 (10_state.md R27). -/
  ilen : Byte
  /-- VOUT, REG:5 (10_state.md R28). -/
  vout : Word
  /-- OSTART, REG:6 (10_state.md R29). -/
  ostart : Byte
  /-- OLEN, REG:7 (10_state.md R30). -/
  olen : Byte
  /-- EPOS, REG:8 (10_state.md R31). -/
  epos : Byte
  /-- ECHR, REG:9 (10_state.md R32). -/
  echr : Byte
  /-- CKCALC, REG:10 (10_state.md R33). -/
  ckcalc : Byte
  /-- CKSYM, REG:11 (10_state.md R34). -/
  cksym : Byte
  /-- ECAUSE, REG:12 (10_state.md R35). -/
  ecause : Byte
  /-- IBUF, LMAX slots (10_state.md R36). -/
  ibuf : Memory
  /-- OBUF, 14 slots (10_state.md R37). -/
  obuf : Memory
  /-- LMAX and P_NODATA_IS_ZERO; no step changes them (log 4). -/
  cfg : Config
  /-- HOST's steps still to be taken, first one first (log 1). -/
  script : List HostStep
  /-- The reads HOST made and the values they returned, newest first (10_state.md R40, log 1). -/
  seen : List (HostAddr × Word)
  /-- Which agent is preferred at each coming step; ENGINE once the list is used up (20_memory.md
  R72, 10_state.md R46, log 2). -/
  turns : List Agent
  /-- How many unspecified values have been drawn (10_state.md R45, log 3). -/
  draws : Nat
deriving DecidableEq, Repr

/-- The state after reset (10_state.md R47, 70_reset_and_hazards.md R250): every register and every
buffer slot 0, the parameters at the spec's defaults. HOST's side is empty (DESIGN CHOICE, log 13). -/
def State.reset : State where
  cmd := 0
  status := 0
  vin := 0
  dlen := 0
  ilen := 0
  vout := 0
  ostart := 0
  olen := 0
  epos := 0
  echr := 0
  ckcalc := 0
  cksym := 0
  ecause := 0
  ibuf := []
  obuf := []
  cfg := Config.default
  script := []
  seen := []
  turns := []
  draws := 0

end Sys2Proof.Machine
end

