-- ==== Sys2Proof/Machine/Flags.lean ====
section
/-! DEFINITION. STATUS and its fields (10_state.md R24), the codes of the error kinds and causes
(60_exceptions.md R210, R211), and the decoder's overflow flag (42_decode.md R183). -/

namespace Sys2Proof.Machine

/-- BUSY, bit 0 of STATUS (10_state.md R24). -/
def statusBusy (st : Byte) : Bool := st.getLsbD 0

/-- DONE, bit 1 of STATUS (10_state.md R24). -/
def statusDone (st : Byte) : Bool := st.getLsbD 1

/-- OK, bit 2 of STATUS (10_state.md R24). -/
def statusOk (st : Byte) : Bool := st.getLsbD 2

/-- ERR, bits 5:3 of STATUS (10_state.md R24). -/
def statusErr (st : Byte) : BitVec 3 := st.extractLsb' 3 3

/-- OVF, bit 6 of STATUS (10_state.md R24). -/
def statusOvf (st : Byte) : Bool := st.getLsbD 6

/-- STATUS while an operation runs: BUSY = 1, every other field 0 (10_state.md R42). -/
def busyStatus : Byte := 0x01

/-- STATUS written by a completion: bit 7 zero, BUSY = 0, DONE = 1 (60_exceptions.md R213). -/
def completedStatus (ovf : Bool) (err : BitVec 3) (ok : Bool) : Byte :=
  (0 : BitVec 1) ++ BitVec.ofBool ovf ++ err ++ BitVec.ofBool ok ++ (1 : BitVec 1) ++ (0 : BitVec 1)

/-- The code a kind takes in STATUS.ERR (60_exceptions.md R210). -/
def errCode : ErrKind → BitVec 3
  | .invalidArgument => 1
  | .bufferTooSmall => 2
  | .symbolOutOfRange => 3
  | .checksumMismatch => 4
  | .illegalCommand => 5

/-- The kind each cause belongs to (60_exceptions.md R211). -/
def failureKind : Failure → ErrKind
  | .negValue => .invalidArgument
  | .emptyInput => .invalidArgument
  | .noData => .invalidArgument
  | .noCheckSymbol => .invalidArgument
  | .destTooSmall => .bufferTooSmall
  | .dataSymbol _ _ => .symbolOutOfRange
  | .checkSymbol _ _ => .symbolOutOfRange
  | .checkMismatch _ _ => .checksumMismatch
  | .reservedOp => .illegalCommand
  | .reservedBits => .illegalCommand
  | .badIlen => .illegalCommand

/-- The code a cause takes in ECAUSE (60_exceptions.md R211). -/
def causeCode : Failure → Byte
  | .negValue => 1
  | .emptyInput => 2
  | .noData => 3
  | .noCheckSymbol => 4
  | .destTooSmall => 5
  | .dataSymbol _ _ => 6
  | .checkSymbol _ _ => 7
  | .checkMismatch _ _ => 8
  | .reservedOp => 9
  | .reservedBits => 10
  | .badIlen => 11

/-- EPOS after a failure: the position of the offending character, else 0 (10_state.md R31). -/
def failurePos : Failure → Byte
  | .dataSymbol pos _ => pos
  | .checkSymbol pos _ => pos
  | _ => 0

/-- ECHR after a failure: the offending character's code, else 0 (10_state.md R32). -/
def failureChr : Failure → Byte
  | .dataSymbol _ chr => chr
  | .checkSymbol _ chr => chr
  | _ => 0

/-- CKCALC after a failure: the computed check value of a mismatch, else 0 (10_state.md R33). -/
def failureCalc : Failure → Byte
  | .checkMismatch computed _ => computed
  | _ => 0

/-- CKSYM after a failure: the check symbol's value of a mismatch, else 0 (10_state.md R34). -/
def failureSym : Failure → Byte
  | .checkMismatch _ symbol => symbol
  | _ => 0

/-- Whether the data character of value `d`, met after `ndata` others, has a bit at position 64 or
above (42_decode.md R183). -/
def overflows (ndata : Nat) (d : BitVec 5) : Bool :=
  (decide (ndata = 12) && decide (16 ≤ d.toNat)) || (decide (13 ≤ ndata) && decide (d ≠ 0))

end Sys2Proof.Machine
end

