-- ==== Sys2Proof/Machine/Ops.lean ====
section
/-! DEFINITION. The operations every meaning shares: one element of a buffer, the completion record of
a success, the raise of an error (the block's counterpart of taking an exception; there is no return
from one, 60_exceptions.md R215, R217), and the accepted start of an operation. -/

namespace Sys2Proof.Machine

/-- `MemRead(SPACE + i, 1)` of a buffer: an index not listed reads 0x00 (00_scope.md R11). -/
def Memory.read (m : Memory) (i : Nat) : Byte :=
  match m with
  | [] => 0#8
  | (a, b) :: rest => if a = i then b else Memory.read rest i

/-- `MemWrite(SPACE + i, 1, b)` of a buffer: keeps the canonical form, so 0x00 removes the entry
(00_scope.md R11). -/
def Memory.write (m : Memory) (i : Nat) (b : Byte) : Memory :=
  match m with
  | [] => if b = 0#8 then [] else [(i, b)]
  | (a, c) :: rest =>
    if i < a then (if b = 0#8 then (a, c) :: rest else (i, b) :: (a, c) :: rest)
    else if i = a then (if b = 0#8 then rest else (i, b) :: rest)
    else (a, c) :: Memory.write rest i b

/-- What `raise Kind(CAUSE, info)` writes, the one way an operation fails (60_exceptions.md R213,
R214): the record of the failure, and 0 in every result. -/
def raise (f : Failure) : Completion where
  status := completedStatus false (errCode (failureKind f)) false
  vout := 0
  ostart := 0
  olen := 0
  epos := failurePos f
  echr := failureChr f
  ckcalc := failureCalc f
  cksym := failureSym f
  ecause := causeCode f
  obuf := []

/-- What a successful ENC or ENCB writes (60_exceptions.md R213): the buffer, the number of symbols
and the start offset; every other result register 0. -/
def succeedEncode (ob : Memory) (olen ostart : Nat) : Completion where
  status := completedStatus false 0 true
  vout := 0
  ostart := BitVec.ofNat 8 ostart
  olen := BitVec.ofNat 8 olen
  epos := 0
  echr := 0
  ckcalc := 0
  cksym := 0
  ecause := 0
  obuf := ob

/-- What a successful DEC writes (60_exceptions.md R213): the value, the overflow note and the two
check values; every other result register 0. -/
def succeedDecode (value : Word) (ovf : Bool) (ckcalc cksym : Byte) : Completion where
  status := completedStatus ovf 0 true
  vout := value
  ostart := 0
  olen := 0
  epos := 0
  echr := 0
  ckcalc := ckcalc
  cksym := cksym
  ecause := 0
  obuf := []

/-- The write of every result register by one completion (10_state.md R46, 60_exceptions.md R213).
CMD, VIN, DLEN, ILEN and IBUF are left as they were. -/
def State.complete (s : State) (r : Completion) : State :=
  { s with
    status := r.status, vout := r.vout, ostart := r.ostart, olen := r.olen, epos := r.epos,
    echr := r.echr, ckcalc := r.ckcalc, cksym := r.cksym, ecause := r.ecause, obuf := r.obuf }

/-- The result registers and OBUF as they stand. -/
def State.results (s : State) : Completion where
  status := s.status
  vout := s.vout
  ostart := s.ostart
  olen := s.olen
  epos := s.epos
  echr := s.echr
  ckcalc := s.ckcalc
  cksym := s.cksym
  ecause := s.ecause
  obuf := s.obuf

/-- An accepted write of CMD: the byte is stored and STATUS becomes 0x01 (10_state.md R42). -/
def State.startCommand (s : State) (c : Byte) : State := { s with cmd := c, status := busyStatus }

/-- The block after `rst` (10_state.md R47): every register and slot 0, a running operation
abandoned. The parameters are the implementation's and HOST's side is outside the block, so neither
is touched (log 10). -/
def State.blockReset (s : State) : State :=
  { State.reset with
    cfg := s.cfg, script := s.script, seen := s.seen, turns := s.turns, draws := s.draws }

/-- BUSY as it stands (10_state.md R24). -/
def State.busy (s : State) : Bool := statusBusy s.status

/-- The output `done`, equal to STATUS.DONE at all times (10_state.md R52). -/
def State.donePin (s : State) : Bool := statusDone s.status

end Sys2Proof.Machine
end

