-- ==== Sys2Proof/Machine/Tables.lean ====
section
/-! DEFINITION. The contents of the three ROM tables (20_memory.md R63, 30_encoding.md R90 to R94).
They are constants, not state (00_scope.md R8). The character codes are the spec's own column of
codes (log 17). -/

namespace Sys2Proof.Machine

/-- The hyphen, 0x2D, the one character DEC skips (30_encoding.md R90, 42_decode.md R176). -/
def hyphen : Byte := 0x2D

/-- ENC32, values 0 to 31: the ten digits, then the letters without I, L, O, U (30_encoding.md R91). -/
def enc32 : List Byte :=
  [0x30, 0x31, 0x32, 0x33, 0x34, 0x35, 0x36, 0x37, 0x38, 0x39,
   0x41, 0x42, 0x43, 0x44, 0x45, 0x46, 0x47, 0x48, 0x4A, 0x4B, 0x4D]
  ++ [0x4E, 0x50, 0x51, 0x52, 0x53, 0x54, 0x56, 0x57, 0x58, 0x59, 0x5A]

/-- ENC37: ENC32 and the five check-only symbols `* ~ $ = U`, values 32 to 36 (30_encoding.md R92). -/
def enc37 : List Byte := enc32 ++ [0x2A, 0x7E, 0x24, 0x3D, 0x55]

/-- `MemRead(ENC37 + v, 1)`. The index is never out of range: it is `w & 31` or `v mod 37`
(20_memory.md R63). -/
def encSymbol (v : Nat) : Byte := enc37.getD v 0

/-- DATADEC's valid entries, (code, value): digits and upper case (30_encoding.md R93). -/
def dataUpper : List (Byte × BitVec 5) :=
  [(0x30, 0), (0x31, 1), (0x32, 2), (0x33, 3), (0x34, 4), (0x35, 5), (0x36, 6), (0x37, 7),
   (0x38, 8), (0x39, 9), (0x41, 10), (0x42, 11), (0x43, 12), (0x44, 13), (0x45, 14), (0x46, 15)]
  ++ [(0x47, 16), (0x48, 17), (0x49, 1), (0x4A, 18), (0x4B, 19), (0x4C, 1), (0x4D, 20), (0x4E, 21),
   (0x4F, 0), (0x50, 22), (0x51, 23), (0x52, 24), (0x53, 25), (0x54, 26), (0x56, 27), (0x57, 28),
   (0x58, 29), (0x59, 30), (0x5A, 31)]

/-- DATADEC's valid entries, (code, value): lower case (30_encoding.md R93). -/
def dataLower : List (Byte × BitVec 5) :=
  [(0x61, 10), (0x62, 11), (0x63, 12), (0x64, 13), (0x65, 14), (0x66, 15), (0x67, 16), (0x68, 17),
   (0x69, 1), (0x6A, 18), (0x6B, 19), (0x6C, 1), (0x6D, 20)]
  ++ [(0x6E, 21), (0x6F, 0), (0x70, 22), (0x71, 23), (0x72, 24), (0x73, 25), (0x74, 26),
   (0x76, 27), (0x77, 28), (0x78, 29), (0x79, 30), (0x7A, 31)]

/-- `MemRead(DATADEC + ch, 1)`: the value 0 to 31 of a data symbol, none where the entry is not
valid (20_memory.md R61, 30_encoding.md R93). -/
def dataDec (ch : Byte) : Option (BitVec 5) := (dataUpper ++ dataLower).lookup ch

/-- CHKDEC's valid entries, (code, value), in the order of the codes (30_encoding.md R94). -/
def chkRows : List (Byte × BitVec 6) :=
  [(0x24, 34), (0x2A, 32), (0x30, 0), (0x31, 1), (0x32, 2), (0x33, 3), (0x34, 4), (0x35, 5),
   (0x36, 6), (0x37, 7), (0x38, 8), (0x39, 9), (0x3D, 35), (0x41, 10), (0x42, 11), (0x43, 12),
   (0x44, 13), (0x45, 14), (0x46, 15)]
  ++ [(0x47, 16), (0x48, 17), (0x4A, 18), (0x4B, 19), (0x4D, 20), (0x4E, 21), (0x50, 22),
   (0x51, 23), (0x52, 24), (0x53, 25), (0x54, 26), (0x55, 36), (0x56, 27), (0x57, 28), (0x58, 29),
   (0x59, 30), (0x5A, 31), (0x7E, 33)]

/-- `MemRead(CHKDEC + ch, 1)`: the value 0 to 36 of a check symbol, none where the entry is not
valid. Strict: upper case only, no folding (30_encoding.md R94). -/
def chkDec (ch : Byte) : Option (BitVec 6) := chkRows.lookup ch

end Sys2Proof.Machine
end

