-- ==== Sys2Proof/Machine/Operands.lean ====
section
/-! DEFINITION. How an operation takes its operands (30_encoding.md R101): VIN as an unsigned number
with bit 63 tested first when SG = 1, its groups and check value, DLEN against the destination bound,
ILEN and the characters of IBUF. Nothing is sign-extended, scaled or shifted on the way. -/

namespace Sys2Proof.Machine

/-- The test of SIGNCHECK: `sg = 1 and v[63] = 1` (41_encode.md R142). -/
def isNegative (sg : Bool) (v : Word) : Bool := sg && v.getLsbD 63

/-- The low group `w & 31`, an index into ENC32 (40_arith_check.md R121). -/
def lowGroup (w : Word) : Nat := (w &&& 31).toNat

/-- The remaining value: the logical right shift by 5 (40_arith_check.md R122). -/
def shiftGroup (w : Word) : Word := w >>> 5

/-- The check value `v mod 37` of the unsigned number (40_arith_check.md R124). -/
def checkValue (v : Word) : Nat := v.toNat % 37

/-- The slots of the output buffer, which is also the smallest destination ENCB accepts
(00_scope.md R9 `OBN`, 41_encode.md R147). -/
def outputSlots : Nat := 14

/-- The test of ENCB on DLEN: an unsigned comparison with 14 (41_encode.md R147). -/
def destTooSmall (dlen : Byte) : Bool := decide (dlen.toNat < outputSlots)

/-- The test of DEC on ILEN against the buffer (42_decode.md R172). -/
def lengthBeyondBuffer (cfg : Config) (ilen : Byte) : Bool := decide (cfg.lmax < ilen.toNat)

/-- The position DEC reports for the character at index `k`: counted from 1, hyphens counted
(42_decode.md R178, R180). It is at most ILEN, so it fits 8 bits. -/
def position (k : Nat) : Byte := BitVec.ofNat 8 (k + 1)

end Sys2Proof.Machine
end

