-- ==== Sys2Proof/Machine/DecodeOp.lean ====
section
/-! DEFINITION. The decode family, DEC (42_decode.md). It is a function of ILEN, of the characters of
IBUF below ILEN, of the CS flag and of the open parameters (R193), so it is a completion record
computed from those. -/

namespace Sys2Proof.Machine

/-- The values DEC keeps while it scans (10_state.md R38). `ndata` counts at most ILEN characters, so
its 8 bits never wrap (log 11). -/
structure Scan where
  acc : Word
  mul : Word
  ck : BitVec 6
  ckseen : Bool
  ndata : Nat
  ovf : Bool
deriving DecidableEq, Repr

/-- The start of the scan (42_decode.md R174). -/
def scanStart : Scan :=
  { acc := 0, mul := 1, ck := 0, ckseen := false, ndata := 0, ovf := false }

/-- The check symbol recorded (42_decode.md R177). -/
def Scan.recordCheck (a : Scan) (v : BitVec 6) : Scan := { a with ck := v, ckseen := true }

/-- One data symbol of value `d` consumed (42_decode.md R181 to R183, 40_arith_check.md R126). -/
def Scan.consume (a : Scan) (d : BitVec 5) : Scan :=
  { a with
    ovf := a.ovf || overflows a.ndata d
    acc := a.acc + d.setWidth 64 * a.mul
    mul := a.mul * 32
    ndata := a.ndata + 1 }

/-- What the scan does with the character `ch` at index `k` (42_decode.md R176 to R183): the hyphen
test first, then the check symbol, then a data character. -/
def scanChar (cs : Bool) (k : Nat) (ch : Byte) (a : Scan) : Except Failure Scan :=
  if ch = hyphen then .ok a
  else if cs && !a.ckseen then
    match chkDec ch with
    | none => .error (.checkSymbol (position k) ch)
    | some v => .ok (a.recordCheck v)
  else
    match dataDec ch with
    | none => .error (.dataSymbol (position k) ch)
    | some d => .ok (a.consume d)

/-- The scan of the characters at indices below `n`, from `n - 1` down to 0; it ends at the first bad
one (42_decode.md R175, R180). -/
def scan (cs : Bool) (ibuf : Memory) (n : Nat) (a : Scan) : Except Failure Scan :=
  match n with
  | 0 => .ok a
  | k + 1 =>
    match scanChar cs k (ibuf.read k) a with
    | .error f => .error f
    | .ok b => scan cs ibuf k b

/-- The tests after the scan, in their order, and the success (42_decode.md R185 to R189). -/
def finishScan (cfg : Config) (cs : Bool) (a : Scan) : Completion :=
  if a.ndata = 0 ∧ cfg.nodataIsZero = false then raise .noData
  else if cs then
    if a.ckseen = false then raise .noCheckSymbol
    else if checkValue a.acc ≠ a.ck.toNat then
      raise (.checkMismatch (BitVec.ofNat 8 (checkValue a.acc)) (a.ck.setWidth 8))
    else succeedDecode a.acc a.ovf (BitVec.ofNat 8 (checkValue a.acc)) (a.ck.setWidth 8)
  else succeedDecode a.acc a.ovf 0 0

/-- DEC's completion record (42_decode.md R171): the length tests, the scan, the tests after it. -/
def decRecord (cfg : Config) (cs : Bool) (ilen : Byte) (ibuf : Memory) : Completion :=
  if lengthBeyondBuffer cfg ilen then raise .badIlen
  else if ilen = 0#8 then raise .emptyInput
  else
    match scan cs ibuf ilen.toNat scanStart with
    | .error f => raise f
    | .ok a => finishScan cfg cs a

/-- DEC (42_decode.md R171). -/
def execDec (cs : Bool) (s : State) : Host.Outcome State Fault Refusal :=
  .next (s.complete (decRecord s.cfg cs s.ilen s.ibuf))

end Sys2Proof.Machine
end

