-- ==== Sys2Proof/Machine/Encode.lean ====
section
/-! DEFINITION. The encode family, ENC and ENCB (41_encode.md). Both are functions of VIN, DLEN and the
command's flags alone (R140, R149), so each is a completion record computed from those. -/

namespace Sys2Proof.Machine

/-- The loop of ENCODE_CORE (41_encode.md R143): write the symbol of the low group at the next lower
index, shift, and go on until the remaining value is 0. The first argument bounds the rounds; the
body is run at least once when it is positive (R144). -/
def encodeLoop (rounds : Nat) (w : Word) (ob : Memory) (i : Nat) : Memory × Nat :=
  match rounds with
  | 0 => (ob, i)
  | n + 1 =>
    if shiftGroup w = 0 then (ob.write (i - 1) (encSymbol (lowGroup w)), i - 1)
    else encodeLoop n (shiftGroup w) (ob.write (i - 1) (encSymbol (lowGroup w))) (i - 1)

/-- ENCODE_CORE (41_encode.md R143 to R145): the 14-slot buffer and the index of its first symbol.
After 13 shifts by 5 a 64-bit value is 0, so 13 rounds are enough (40_arith_check.md R122). -/
def encodeCore (v : Word) (cs : Bool) : Memory × Nat :=
  if cs then encodeLoop 13 v (Memory.write [] 13 (encSymbol (checkValue v))) 13
  else encodeLoop 13 v [] 14

/-- The number of symbols laid down: the value OLEN takes, `14 - i` (41_encode.md R141). -/
def encodedLength (v : Word) (cs : Bool) : Nat := outputSlots - (encodeCore v cs).2

/-- ENC's completion record (41_encode.md R141). -/
def encRecord (cs sg : Bool) (v : Word) : Completion :=
  if isNegative sg v then raise .negValue
  else succeedEncode (encodeCore v cs).1 (encodedLength v cs) (encodeCore v cs).2

/-- ENCB's completion record (41_encode.md R146): the sign test before the size test (R152), and
OSTART an index into the destination of DLEN slots (R148). -/
def encbRecord (cs sg : Bool) (v : Word) (dlen : Byte) : Completion :=
  if isNegative sg v then raise .negValue
  else if destTooSmall dlen then raise .destTooSmall
  else succeedEncode (encodeCore v cs).1 (encodedLength v cs) (dlen.toNat - encodedLength v cs)

/-- ENC (41_encode.md R141). -/
def execEnc (cs sg : Bool) (s : State) : Host.Outcome State Fault Refusal :=
  .next (s.complete (encRecord cs sg s.vin))

/-- ENCB (41_encode.md R146). -/
def execEncb (cs sg : Bool) (s : State) : Host.Outcome State Fault Refusal :=
  .next (s.complete (encbRecord cs sg s.vin s.dlen))

/-- What stands in slot `d` of the caller's destination of DLEN slots once the string has been copied there
from OBUF, which stands for the destination's last 14 slots (20_memory.md R71): the slots from OSTART to
DLEN - 1 take the string (70_reset_and_hazards.md R259), those below DLEN - 14 are never touched (R71).
DESIGN CHOICE (log 20): the slots from DLEN - 14 to OSTART - 1 keep what they held; the spec has a caller
rely on nothing there (93_implementation_defined.md U9). `before` is what the destination held. The copy
itself is outside the block. -/
def destinationSlot (dlen : Byte) (obuf : Memory) (before : Nat → Byte) (ostart : Byte) (d : Nat) :
    Byte :=
  if ostart.toNat ≤ d ∧ d < dlen.toNat then obuf.read (d + outputSlots - dlen.toNat) else before d

end Sys2Proof.Machine
end

