-- ==== Sys2Proof/Machine/Illegal.lean ====
section
/-! DEFINITION. The six rows of illegal command bytes (30_encoding.md R103, 60_exceptions.md R221). An
illegal command reads no operand and completes as an ordinary failure of kind IllegalCommand. -/

namespace Sys2Proof.Machine

/-- ILLEGAL.RESERVED_OP: bits 7:4 zero and OP = 0b11, cause RESERVED_OP (30_encoding.md R103). -/
def execIllegalReservedOp (s : State) : Host.Outcome State Fault Refusal :=
  .next (s.complete (raise .reservedOp))

/-- ILLEGAL.DEC_SG: DEC with SG = 1, cause RESERVED_BITS (30_encoding.md R103). -/
def execIllegalDecSg (s : State) : Host.Outcome State Fault Refusal :=
  .next (s.complete (raise .reservedBits))

/-- ILLEGAL.RESERVED_BITS.b7: cause RESERVED_BITS (30_encoding.md R103). -/
def execIllegalReservedB7 (s : State) : Host.Outcome State Fault Refusal :=
  .next (s.complete (raise .reservedBits))

/-- ILLEGAL.RESERVED_BITS.b6: cause RESERVED_BITS (30_encoding.md R103). -/
def execIllegalReservedB6 (s : State) : Host.Outcome State Fault Refusal :=
  .next (s.complete (raise .reservedBits))

/-- ILLEGAL.RESERVED_BITS.b5: cause RESERVED_BITS (30_encoding.md R103). -/
def execIllegalReservedB5 (s : State) : Host.Outcome State Fault Refusal :=
  .next (s.complete (raise .reservedBits))

/-- ILLEGAL.RESERVED_BITS.b4: cause RESERVED_BITS (30_encoding.md R103). -/
def execIllegalReservedB4 (s : State) : Host.Outcome State Fault Refusal :=
  .next (s.complete (raise .reservedBits))

end Sys2Proof.Machine
end

