-- ==== Sys2Proof/Machine/Dispatch.lean ====
section
/-! DEFINITION. EXECUTE (30_encoding.md R104): one arm per operation, the engine's completion of it
(10_state.md R46). -/

namespace Sys2Proof.Machine

def exec (i : Instr) (s : State) : Host.Outcome State Fault Refusal :=
  match i with
  | .enc cs sg => Sys2Proof.Machine.execEnc cs sg s
  | .encb cs sg => Sys2Proof.Machine.execEncb cs sg s
  | .dec cs => Sys2Proof.Machine.execDec cs s
  | .illegalReservedOp _ => Sys2Proof.Machine.execIllegalReservedOp s
  | .illegalDecSg _ => Sys2Proof.Machine.execIllegalDecSg s
  | .illegalReservedB7 _ => Sys2Proof.Machine.execIllegalReservedB7 s
  | .illegalReservedB6 _ => Sys2Proof.Machine.execIllegalReservedB6 s
  | .illegalReservedB5 _ => Sys2Proof.Machine.execIllegalReservedB5 s
  | .illegalReservedB4 _ => Sys2Proof.Machine.execIllegalReservedB4 s

end Sys2Proof.Machine
end

