-- ==== Sys2Proof/Machine/HostPort.lean ====
section
/-! DEFINITION. HOST's steps over the register access port (10_state.md R40 to R45, R51; 30_encoding.md
R107, R108): which addresses exist, what a read returns, what a write does, and the written
statements of R106 with their expansions. -/

namespace Sys2Proof.Machine

/-- The number of a register, the index n of REG:n (10_state.md R39). -/
def regNumber : Reg → Nat
  | .cmd => 0
  | .status => 1
  | .vin => 2
  | .dlen => 3
  | .ilen => 4
  | .vout => 5
  | .ostart => 6
  | .olen => 7
  | .epos => 8
  | .echr => 9
  | .ckcalc => 10
  | .cksym => 11
  | .ecause => 12

/-- The width of a register (10_state.md R39). -/
def regWidth : Reg → Nat
  | .vin => 64
  | .vout => 64
  | _ => 8

/-- Whether an address is one of the list of 20_memory.md R62. The ROM tables have none. -/
def addressExists (cfg : Config) : HostAddr → Bool
  | .reg _ => true
  | .ibuf i => decide (i < cfg.lmax)
  | .obuf i => decide (i < 14)

/-- The width of the element at an address (20_memory.md R61). -/
def elementWidth : HostAddr → Nat
  | .reg r => regWidth r
  | .ibuf _ => 8
  | .obuf _ => 8

/-- Whether a value fits the element: an access is one whole element (20_memory.md R65, log 6). -/
def valueFits (a : HostAddr) (v : Word) : Bool := decide (v.toNat < 2 ^ elementWidth a)

/-- Whether a read of the address is unspecified while an operation runs: the result registers other
than STATUS, and the slots of OBUF (10_state.md R45). -/
def isResult : HostAddr → Bool
  | .reg .vout => true
  | .reg .ostart => true
  | .reg .olen => true
  | .reg .epos => true
  | .reg .echr => true
  | .reg .ckcalc => true
  | .reg .cksym => true
  | .reg .ecause => true
  | .reg .cmd => false
  | .reg .status => false
  | .reg .vin => false
  | .reg .dlen => false
  | .reg .ilen => false
  | .ibuf _ => false
  | .obuf _ => true

/-- The stored value of an element, zero-extended to the port's carrier (log 6). -/
def storedValue (s : State) : HostAddr → Word
  | .reg .cmd => s.cmd.setWidth 64
  | .reg .status => s.status.setWidth 64
  | .reg .vin => s.vin
  | .reg .dlen => s.dlen.setWidth 64
  | .reg .ilen => s.ilen.setWidth 64
  | .reg .vout => s.vout
  | .reg .ostart => s.ostart.setWidth 64
  | .reg .olen => s.olen.setWidth 64
  | .reg .epos => s.epos.setWidth 64
  | .reg .echr => s.echr.setWidth 64
  | .reg .ckcalc => s.ckcalc.setWidth 64
  | .reg .cksym => s.cksym.setWidth 64
  | .reg .ecause => s.ecause.setWidth 64
  | .ibuf i => (s.ibuf.read i).setWidth 64
  | .obuf i => (s.obuf.read i).setWidth 64

/-- Any value of the element's width: the unspecified value of 10_state.md R45, the `n`-th one drawn (log 3).
DESIGN CHOICE (log 21): every bit of the element is free, also those R30, R33 and
93_implementation_defined.md U6 say always read 0 (OLEN bits 7:4, CKCALC and CKSYM bits 7:6) and the
ECAUSE codes U6 says are never produced. -/
def unspecifiedValue (a : HostAddr) (n : Nat) : Word :=
  BitVec.ofNat 64 ((Config.freeRead n).toNat % 2 ^ elementWidth a)

/-- Whether this read is one of the unspecified ones (10_state.md R45). -/
def readIsUnspecified (s : State) (a : HostAddr) : Bool := s.busy && isResult a

/-- The value a read returns (10_state.md R40, R45). -/
def readValue (s : State) (a : HostAddr) : Word :=
  if readIsUnspecified s a then unspecifiedValue a s.draws else storedValue s a

/-- A read by HOST: it changes nothing of the block (10_state.md R40, R45); HOST has the value, and an
unspecified value is used up. -/
def State.hostRead (s : State) (a : HostAddr) : State :=
  { s with
    seen := (a, readValue s a) :: s.seen
    draws := if readIsUnspecified s a then s.draws + 1 else s.draws }

/-- The change a write makes while BUSY = 0: CMD starts an operation (10_state.md R42), an operand takes
the value (R41), read-only state ignores it (R44). -/
def State.idleWrite (s : State) (v : Word) : HostAddr → State
  | .reg .cmd => s.startCommand (v.setWidth 8)
  | .reg .vin => { s with vin := v }
  | .reg .dlen => { s with dlen := v.setWidth 8 }
  | .reg .ilen => { s with ilen := v.setWidth 8 }
  | .ibuf i => { s with ibuf := s.ibuf.write i (v.setWidth 8) }
  | .reg .status => s
  | .reg .vout => s
  | .reg .ostart => s
  | .reg .olen => s
  | .reg .epos => s
  | .reg .echr => s
  | .reg .ckcalc => s
  | .reg .cksym => s
  | .reg .ecause => s
  | .obuf _ => s

/-- A write by HOST: lost while an operation runs (10_state.md R43), else as `idleWrite`. -/
def State.hostWrite (s : State) (a : HostAddr) (v : Word) : State :=
  if s.busy then s else s.idleWrite v a

/-- HOST's program from now on. -/
def State.withScript (s : State) (p : List HostStep) : State := { s with script := p }

/-- One read, after which HOST goes on with the program `next` makes of the value returned. -/
def readThen (s : State) (a : HostAddr) (next : Word → List HostStep) :
    Host.Outcome State Fault Refusal :=
  if addressExists s.cfg a then .next ((s.hostRead a).withScript (next (readValue s a)))
  else .refused (.unmappedAddress a)

/-- One write, after which HOST goes on with `rest`. -/
def writeThen (s : State) (a : HostAddr) (v : Word) (rest : List HostStep) :
    Host.Outcome State Fault Refusal :=
  if addressExists s.cfg a then
    if valueFits a v then .next ((s.hostWrite a v).withScript rest)
    else .refused (.valueTooWide a v)
  else .refused (.unmappedAddress a)

/-- The reads of a string of `n` symbols, lowest index first: `RD OBUF:j`, j from 14 - n to 13
(70_reset_and_hazards.md R259). -/
def stringReads (n : Nat) : List HostStep :=
  (List.range n).map fun t => .rd (.obuf (14 - n + t))

/-- COPYOUT after its read of OLEN gave `n`: for j from 14 - n to 13, `RD OBUF:j`, `WR IBUF:(j - 14 + n)`
of the value read; then `WR REG:4, n` (30_encoding.md R108). -/
def copySteps (n : Nat) : List HostStep :=
  ((List.range n).flatMap fun t => [.rd (.obuf (14 - n + t)), .wrLast (.ibuf t)])
    ++ [.wr (.reg .ilen) (BitVec.ofNat 64 n)]

/-- What a consumer reads when STATUS.OK = 1 (30_encoding.md R108). -/
def resultReads : ResultKind → List HostStep
  | .encoded => [.rd (.reg .ostart), .readString]
  | .decoded => [.rd (.reg .vout)]

/-- One step of HOST, taken from its program (30_encoding.md R107, R108; 10_state.md R40 to R45, R47).
With no program left HOST does nothing. -/
def hostStep (s : State) : Host.Outcome State Fault Refusal :=
  match s.script with
  | [] => .next s
  | .rd a :: rest => readThen s a fun _ => rest
  | .wr a v :: rest => writeThen s a v rest
  | .wrLast a :: rest =>
    match s.seen with
    | [] => .refused (.noValueRead a)
    | (_, v) :: _ => writeThen s a v rest
  | .wait :: rest =>
    readThen s (.reg .status) fun v => if statusDone (v.setWidth 8) then rest else .wait :: rest
  | .readString :: rest =>
    if 14 < (readValue s (.reg .olen)).toNat then
      .refused (.stringTooLong (readValue s (.reg .olen)).toNat)
    else readThen s (.reg .olen) fun v => stringReads v.toNat ++ rest
  | .copyOut :: rest =>
    if 14 < (readValue s (.reg .olen)).toNat then
      .refused (.stringTooLong (readValue s (.reg .olen)).toNat)
    else readThen s (.reg .olen) fun v => copySteps v.toNat ++ rest
  | .ifOk k :: rest =>
    readThen s (.reg .status) fun v => if statusOk (v.setWidth 8) then resultReads k ++ rest else rest
  | .rst :: rest => .next (s.blockReset.withScript rest)

/-- A written statement of 30_encoding.md R106 and R108. `value` of a `.S` form is the two's complement
pattern; `"string"` is the list of its characters' codes, leftmost first (00_scope.md R12). -/
inductive HostStmt where
  | enc (cs sg : Bool) (value : Word)
  | encb (cs sg : Bool) (value : Word) (dlen : Byte)
  | dec (cs : Bool) (string : List Byte)
  | tryEnc (cs sg : Bool) (value : Word)
  | tryDec (cs : Bool) (string : List Byte)
  | copyOut
deriving DecidableEq, Repr

/-- The writes of a string to IBUF from index `i` on (30_encoding.md R107). -/
def stringWrites (i : Nat) : List Byte → List HostStep
  | [] => []
  | c :: rest => .wr (.ibuf i) (c.setWidth 64) :: stringWrites (i + 1) rest

/-- `WR REG:0, cmdbyte ; WAIT` (30_encoding.md R107). -/
def runCommand (c : Byte) : List HostStep := [.wr (.reg .cmd) (c.setWidth 64), .wait]

/-- `ENC[.CS][.S] value` for the command byte `c` (30_encoding.md R107). -/
def expandEnc (c : Byte) (value : Word) : List HostStep := .wr (.reg .vin) value :: runCommand c

/-- `ENCB[.CS][.S] value, dlen` for the command byte `c` (30_encoding.md R107). -/
def expandEncb (c : Byte) (value : Word) (dlen : Byte) : List HostStep :=
  .wr (.reg .vin) value :: .wr (.reg .dlen) (dlen.setWidth 64) :: runCommand c

/-- `DEC[.CS] "string"` for the command byte `c` (30_encoding.md R107). -/
def expandDec (c : Byte) (string : List Byte) : List HostStep :=
  stringWrites 0 string
    ++ .wr (.reg .ilen) (BitVec.ofNat 64 string.length) :: runCommand c

end Sys2Proof.Machine
end

