-- ==== Sys2Proof/Machine/Engine.lean ====
section
/-! DEFINITION. The engine's step, the choice of the agent that moves, and the expansion of HOST's
written statements (which needs the encoder). -/

namespace Sys2Proof.Machine

/-- The completion of the latched operation: the command byte is the one CMD holds, decoded and run
(10_state.md R46, 30_encoding.md R104). -/
def engineStep (s : State) : Host.Outcome State Fault Refusal := exec (decode s.cmd) s

/-- HOST has a step when its program is not empty. -/
def State.hostCanMove (s : State) : Bool := !s.script.isEmpty

/-- The agent that moves. ENGINE can move exactly when BUSY = 1 (10_state.md R46), HOST when it has a
program. If both can, the next entry of `turns` decides, and ENGINE when there is none: so every
interleaving of 20_memory.md R72 is some `turns`, and ENGINE is never kept waiting for ever (R46,
log 2). None means the block is idle and HOST is silent. -/
def nextAgent (s : State) : Option Agent :=
  match s.turns with
  | .host :: _ =>
    if s.hostCanMove then some .host else if s.busy then some .engine else none
  | .engine :: _ =>
    if s.busy then some .engine else if s.hostCanMove then some .host else none
  | [] => if s.busy then some .engine else if s.hostCanMove then some .host else none

/-- The step just taken uses up one entry of the schedule (log 2). -/
def State.popTurn (s : State) : State := { s with turns := s.turns.tail }

/-- The HOST steps a written statement stands for (30_encoding.md R107, R108). -/
def HostStmt.expand : HostStmt → List HostStep
  | .enc cs sg value => expandEnc (encode (.enc cs sg)) value
  | .encb cs sg value dlen => expandEncb (encode (.encb cs sg)) value dlen
  | .dec cs string => expandDec (encode (.dec cs)) string
  | .tryEnc cs sg value => expandEnc (encode (.enc cs sg)) value ++ [.ifOk .encoded]
  | .tryDec cs string => expandDec (encode (.dec cs)) string ++ [.ifOk .decoded]
  | .copyOut => [.copyOut]

end Sys2Proof.Machine
end

