-- ==== Sys2Proof/Machine/Step.lean ====
section
/-! DEFINITION. One step of the machine: a step of HOST or the completion step of ENGINE. The block has
no program counter and fetches nothing (10_state.md R22, 20_memory.md R74); the operation that runs is
the one in CMD. -/

namespace Sys2Proof.Machine

/-- One step of the machine in the total order of 20_memory.md R72. When no agent can move nothing
happens (log 8). -/
def step (s : State) : Host.Outcome State Fault Refusal :=
  match nextAgent s with
  | some .engine => engineStep s.popTurn
  | some .host => hostStep s.popTurn
  | none => .next s

/-- `s` with the command byte `w` latched as an accepted CMD write leaves it (10_state.md R42) and
ENGINE's turn next, so that the very next step completes that operation (log 5). A command is one
byte (30_encoding.md R105), so a word of fewer bits is one with the bits above them zero. -/
def State.withFetchWord (s : State) (nbits w : Nat) : State :=
  { s with cmd := BitVec.ofNat 8 (w % 2 ^ nbits), status := busyStatus, turns := .engine :: s.turns }

end Sys2Proof.Machine
end

