-- ==== Sys2Proof/Safety.lean ====
section
/-! DEFINITION. The words claims are made in: the spec's own closed forms (30_encoding.md R96, 41_encode.md
R151, 42_decode.md R190), the completion records written out field by field (60_exceptions.md R213),
the legal states, the host programs that are never refused, and runs of many steps. Nothing here is
used by the machine. -/

namespace Sys2Proof.Machine

/-! ### The encoded string -/

/-- `bitlength(v)`: the index of the highest set bit plus 1, 0 for 0 (40_arith_check.md R123). -/
def bitLength (v : Word) : Nat := if v = 0 then 0 else Nat.log2 v.toNat + 1

/-- `n(v)`: `ceil(bitlength(v) / 5)`, and 1 for 0 (40_arith_check.md R123). -/
def groupCount (v : Word) : Nat := if v = 0 then 1 else (bitLength v + 4) / 5

/-- The group `g_j = v[5j+4 : 5j]` (30_encoding.md R96). -/
def group (v : Word) (j : Nat) : Nat := v.toNat / 32 ^ j % 32

/-- `data(v)`: the symbols of the groups, most significant first (30_encoding.md R96). -/
def dataString (v : Word) : List Byte :=
  ((List.range (groupCount v)).reverse).map fun j => encSymbol (group v j)

/-- The canonical encoded string (30_encoding.md R96). -/
def encodedString (v : Word) (cs : Bool) : List Byte :=
  dataString v ++ if cs then [encSymbol (v.toNat % 37)] else []

/-- A buffer holds `str` right-justified in its 14 slots and 0x00 in the slots below, in canonical form
(10_state.md R37). -/
def holdsString (ob : Memory) (str : List Byte) : Prop :=
  str.length ≤ 14 ∧ (∀ k (h : k < str.length), ob.read (14 - str.length + k) = str[k])
    ∧ (∀ j, j < 14 - str.length → ob.read j = 0) ∧ ob.wf = true ∧ ob.below 14 = true

/-! ### The decoded number -/

/-- The input of DEC, first character first: `IBUF[0 .. n-1]` (42_decode.md R170). -/
def inputChars (ibuf : Memory) (n : Nat) : List Byte := (List.range n).map ibuf.read

/-- The non-hyphen characters in the order the scan meets them, last one first (42_decode.md R190). -/
def scannedChars (ibuf : Memory) (n : Nat) : List Byte :=
  (inputChars ibuf n).reverse.filter fun c => c ≠ hyphen

/-- `N = sum over j of d_j * 32^j`, the first of the list being `d_0` (40_arith_check.md R127). -/
def number : List (BitVec 5) → Nat
  | [] => 0
  | d :: rest => d.toNat + 32 * number rest

/-- The characters `cs` decode, one by one, to the values `ds` through DATADEC. -/
abbrev decodesTo (cs : List Byte) (ds : List (BitVec 5)) : Prop := cs.map dataDec = ds.map some

/-- The input length is one DEC scans: 1 to LMAX (42_decode.md R172, R173). -/
abbrev lengthOk (s : State) : Prop := 1 ≤ s.ilen.toNat ∧ s.ilen.toNat ≤ s.cfg.lmax

/-! ### Completion records, field by field -/

/-- A failed completion: no result, and the diagnostics given (60_exceptions.md R213). -/
def failedRecord (status ecause epos echr ckcalc cksym : Byte) : Completion :=
  { status := status, vout := 0, ostart := 0, olen := 0, epos := epos, echr := echr,
    ckcalc := ckcalc, cksym := cksym, ecause := ecause, obuf := [] }

/-- A successful encode: STATUS = 0x06, the buffer, OLEN and OSTART (60_exceptions.md R213). -/
def encodedRecord (ob : Memory) (olen ostart : Nat) : Completion :=
  { status := 0x06, vout := 0, ostart := BitVec.ofNat 8 ostart, olen := BitVec.ofNat 8 olen,
    epos := 0, echr := 0, ckcalc := 0, cksym := 0, ecause := 0, obuf := ob }

/-- A successful decode: STATUS = 0x06, or 0x46 with the overflow note (60_exceptions.md R213). -/
def decodedRecord (value : Word) (ovf : Bool) (ck : Byte) : Completion :=
  { status := if ovf then 0x46 else 0x06, vout := value, ostart := 0, olen := 0, epos := 0,
    echr := 0, ckcalc := ck, cksym := ck, ecause := 0, obuf := [] }

/-! ### Legal states -/

/-- The only values STATUS ever holds (10_state.md R24). -/
def legalStatus (st : Byte) : Bool :=
  st ∈ [0x00, 0x01, 0x06, 0x46, 0x0A, 0x12, 0x1A, 0x22, 0x2A]

/-- The shape of a state: parameters in their range, both buffers in canonical form and within their
slots, STATUS one of its nine values. -/
structure State.Shape (s : State) : Prop where
  cfg : s.cfg.wellFormed = true
  ibufWf : s.ibuf.wf = true
  ibufIn : s.ibuf.below s.cfg.lmax = true
  obufWf : s.obuf.wf = true
  obufIn : s.obuf.below 14 = true
  status : legalStatus s.status = true

/-- A record some failure of 60_exceptions.md R211 leaves, with its kind, its cause and the ranges of
its diagnostics (10_state.md R31 to R34). -/
def FailedRecord (cfg : Config) (r : Completion) : Prop :=
  (∃ e : Byte, (e = 1 ∨ e = 2 ∨ e = 3 ∨ e = 4) ∧ r = failedRecord 0x0A e 0 0 0 0)
  ∨ r = failedRecord 0x12 5 0 0 0 0
  ∨ (∃ pos chr : Byte, 1 ≤ pos.toNat ∧ pos.toNat ≤ cfg.lmax ∧ chr ≠ hyphen
      ∧ dataDec chr = none ∧ r = failedRecord 0x1A 6 pos chr 0 0)
  ∨ (∃ pos chr : Byte, 1 ≤ pos.toNat ∧ pos.toNat ≤ cfg.lmax ∧ chr ≠ hyphen
      ∧ chkDec chr = none ∧ r = failedRecord 0x1A 7 pos chr 0 0)
  ∨ (∃ c k : Byte, c.toNat ≤ 36 ∧ k.toNat ≤ 36 ∧ c ≠ k ∧ r = failedRecord 0x22 8 0 0 c k)
  ∨ (∃ e : Byte, (e = 9 ∨ e = 10 ∨ e = 11) ∧ r = failedRecord 0x2A e 0 0 0 0)

/-- A record some successful encode leaves (10_state.md R29, R30, R37). -/
def EncodedRecord (r : Completion) : Prop :=
  ∃ ob n st, 1 ≤ n ∧ n ≤ 14 ∧ st ≤ 254 ∧ r = encodedRecord ob n st
    ∧ ∀ j, j < 14 → (ob.read j = 0 ↔ j < 14 - n)

/-- A record some successful decode leaves (10_state.md R28, R33, R34). -/
def DecodedRecord (r : Completion) : Prop :=
  ∃ v ovf ck, ck.toNat ≤ 36 ∧ r = decodedRecord v ovf ck

/-- What the result registers may hold: all zeros while nothing has completed since reset, a legal
record once DONE = 1. While an operation runs nothing is said of them (10_state.md R45). -/
def State.RecordLegal (s : State) : Prop :=
  (s.status = 0 → s.results = State.reset.results)
  ∧ (s.donePin = true →
      FailedRecord s.cfg s.results ∨ EncodedRecord s.results ∨ DecodedRecord s.results)

/-! ### Runs -/

/-- `k` steps, stopping at the first refusal. -/
def runFor : Nat → State → Host.Outcome State Fault Refusal
  | 0, s => .next s
  | k + 1, s =>
    match step s with
    | .next t => runFor k t
    | .fault r => .fault r
    | .refused r => .refused r

/-- A HOST step that is never refused: it uses addresses of 20_memory.md R62 and values of the element's
width, and does not depend on a value read. -/
def HostStep.plain (cfg : Config) : HostStep → Bool
  | .rd a => addressExists cfg a
  | .wr a v => addressExists cfg a && valueFits a v
  | .wait => true
  | .rst => true
  | .wrLast _ => false
  | .readString => false
  | .copyOut => false
  | .ifOk _ => false

/-- The HOST's next step writes CMD, with the value `v` (10_state.md R42). -/
def State.writesCommand (s : State) (v : Word) : Prop :=
  (∃ rest, s.script = .wr (.reg .cmd) v :: rest)
  ∨ (∃ rest a seen, s.script = .wrLast (.reg .cmd) :: rest ∧ s.seen = (a, v) :: seen)

end Sys2Proof.Machine
end

