-- ==== Sys2Proof/Certificates/Slice0/Obligations.lean ====
section
/-! DEFINITION. The statements for the provers, in the order of the spec: the command word, the steps, the
encode family, the decode family, the completion record, HOST's steps, and the whole-machine rules.
Where a statement rests on a choice of the model its docstring names the log entry. -/

open Sys2Proof Sys2Proof.Machine

/-! ### The command word -/

/-- 30_encoding.md R102: ten bytes select an operation, as the table says; the match and mask of the three
operations; the other 246 bytes are illegal. -/
def Obligations.TenBytesSelectTheLegalOperations : Prop :=
  (decode 0x00 = .enc false false ∧ decode 0x04 = .enc true false
    ∧ decode 0x08 = .enc false true ∧ decode 0x0C = .enc true true
    ∧ decode 0x01 = .encb false false ∧ decode 0x05 = .encb true false
    ∧ decode 0x09 = .encb false true ∧ decode 0x0D = .encb true true
    ∧ decode 0x02 = .dec false ∧ decode 0x06 = .dec true)
  ∧ (∀ c : Byte, c &&& 0xF3 = 0x00 ↔ ∃ cs sg, decode c = .enc cs sg)
  ∧ (∀ c : Byte, c &&& 0xF3 = 0x01 ↔ ∃ cs sg, decode c = .encb cs sg)
  ∧ (∀ c : Byte, c &&& 0xFB = 0x02 ↔ ∃ cs, decode c = .dec cs)
  ∧ (∀ c : Byte, (decode c).legal = true ↔
      c ∈ ([0x00, 0x04, 0x08, 0x0C, 0x01, 0x05, 0x09, 0x0D, 0x02, 0x06] : List Byte))

/-- 30_encoding.md R103: the classes of illegal bytes in their order of test, the record each completes with
whatever the operands are, that such a byte starts an operation like any other, and the nine disjoint rows
of which every byte matches exactly one. -/
def Obligations.IllegalCommandsCompleteByClass : Prop :=
  (∀ c : Byte, c >>> 4 ≠ 0 →
    decode c = .illegalReservedB7 c ∨ decode c = .illegalReservedB6 c
      ∨ decode c = .illegalReservedB5 c ∨ decode c = .illegalReservedB4 c)
  ∧ (∀ c : Byte, c >>> 4 = 0 → c &&& 3 = 3 → decode c = .illegalReservedOp c)
  ∧ (∀ c : Byte, c >>> 4 = 0 → c &&& 3 = 2 → c.getLsbD 3 = true → decode c = .illegalDecSg c)
  ∧ (∀ (s : State) (c : Byte),
      exec (.illegalReservedOp c) s = .next (s.complete (failedRecord 0x2A 9 0 0 0 0))
      ∧ exec (.illegalDecSg c) s = .next (s.complete (failedRecord 0x2A 10 0 0 0 0))
      ∧ exec (.illegalReservedB7 c) s = .next (s.complete (failedRecord 0x2A 10 0 0 0 0))
      ∧ exec (.illegalReservedB6 c) s = .next (s.complete (failedRecord 0x2A 10 0 0 0 0))
      ∧ exec (.illegalReservedB5 c) s = .next (s.complete (failedRecord 0x2A 10 0 0 0 0))
      ∧ exec (.illegalReservedB4 c) s = .next (s.complete (failedRecord 0x2A 10 0 0 0 0)))
  ∧ (∀ (s : State) (c : Byte) (rest : List HostStep), s.busy = false →
      hostStep { s with script := .wr (.reg .cmd) (c.setWidth 64) :: rest }
        = .next { s with cmd := c, status := 0x01, script := rest })
  ∧ (∀ c : Byte, (opcodeTable.filter fun r => r.holds c).map (·.mnemonic) = [(decode c).mnemonic])

/-- Decoding the byte of a well-formed operation gives the operation back, alone, before other bytes, and
through the opcode table's numbering of bits. -/
def Obligations.DecodeOfEncodeIsTheOperation : Prop :=
  ∀ (i : Instr) (rest : List Byte), i.wellFormed = true →
    decode (encode i) = i
    ∧ decodeBytes (encode i :: rest) = .ok (i, rest)
    ∧ decodeTableWord 8 (encode i).toNat = some i

/-- Every byte decodes to a well-formed operation whose byte it is. -/
def Obligations.EncodeOfDecodeIsTheByte : Prop :=
  ∀ c : Byte, (decode c).wellFormed = true ∧ encode (decode c) = c

/-! ### The steps -/

/-- A step is the step of the agent whose turn it is, after one entry of the schedule is used up (log 2):
ENGINE's runs the operation CMD holds, HOST's the next item of its program, and with neither nothing
happens (log 8). -/
def Obligations.StepRunsTheLatchedOperation : Prop :=
  ∀ s : State,
    (∀ i, i.wellFormed = true → s.cmd = encode i → nextAgent s = some .engine →
      step s = exec i { s with turns := s.turns.tail })
    ∧ (nextAgent s = some .engine → step s = exec (decode s.cmd) { s with turns := s.turns.tail })
    ∧ (nextAgent s = some .host → step s = hostStep { s with turns := s.turns.tail })
    ∧ (nextAgent s = none → step s = .next s)

/-- A placed command is what the very next step runs (log 5). -/
def Obligations.PlacedCommandRunsNext : Prop :=
  ∀ (s : State) (c : Byte),
    step (s.withFetchWord 8 c.toNat) = exec (decode c) { s with cmd := c, status := 0x01 }

/-- Which agent moves (10_state.md R46, 20_memory.md R72; the schedule `turns` is log 2): ENGINE only while
BUSY = 1, and then some agent always; while both can move the head of the schedule decides, and ENGINE
moves when the schedule is used up; an agent that cannot move passes its turn on. -/
def Obligations.ScheduleChoosesTheAgent : Prop :=
  ∀ s : State,
    (nextAgent s = some .engine → s.busy = true)
    ∧ (s.busy = true → nextAgent s ≠ none)
    ∧ (∀ rest, s.busy = true → s.script ≠ [] → s.turns = .host :: rest → nextAgent s = some .host)
    ∧ (∀ rest, s.busy = true → s.turns = .engine :: rest → nextAgent s = some .engine)
    ∧ (s.busy = true → s.script = [] → nextAgent s = some .engine)
    ∧ (s.busy = true → s.turns = [] → nextAgent s = some .engine)
    ∧ (s.busy = false → s.script ≠ [] → nextAgent s = some .host)
    ∧ (s.busy = false → s.script = [] → nextAgent s = none)

/-! ### The encode family -/

/-- 41_encode.md R141: ENC fails exactly on a negative signed input; on every other input it completes with
the canonical string right-justified in OBUF, its length in OLEN and its index in OSTART. -/
def Obligations.EncWritesTheCanonicalString : Prop :=
  ∀ (cs sg : Bool) (s : State),
    ((sg = true ∧ s.vin.getLsbD 63 = true) →
      exec (.enc cs sg) s = .next (s.complete (failedRecord 0x0A 1 0 0 0 0)))
    ∧ (¬ (sg = true ∧ s.vin.getLsbD 63 = true) →
      ∃ ob, holdsString ob (encodedString s.vin cs)
        ∧ exec (.enc cs sg) s = .next (s.complete (encodedRecord ob (encodedString s.vin cs).length
            (14 - (encodedString s.vin cs).length))))

/-- 41_encode.md R146: ENCB fails on a negative signed input, else on a destination below 14 slots; on every
other input OBUF and OLEN are those of ENC and OSTART is DLEN minus the length, so that with DLEN = 14 the
whole record is ENC's. -/
def Obligations.EncbWritesForTheDestination : Prop :=
  ∀ (cs sg : Bool) (s : State),
    ((sg = true ∧ s.vin.getLsbD 63 = true) →
      exec (.encb cs sg) s = .next (s.complete (failedRecord 0x0A 1 0 0 0 0)))
    ∧ (¬ (sg = true ∧ s.vin.getLsbD 63 = true) → s.dlen.toNat < 14 →
      exec (.encb cs sg) s = .next (s.complete (failedRecord 0x12 5 0 0 0 0)))
    ∧ (¬ (sg = true ∧ s.vin.getLsbD 63 = true) → 14 ≤ s.dlen.toNat →
      ∃ ob, holdsString ob (encodedString s.vin cs)
        ∧ exec (.enc cs sg) s = .next (s.complete (encodedRecord ob (encodedString s.vin cs).length
            (14 - (encodedString s.vin cs).length)))
        ∧ exec (.encb cs sg) s = .next (s.complete (encodedRecord ob (encodedString s.vin cs).length
            (s.dlen.toNat - (encodedString s.vin cs).length))))
    ∧ (s.dlen.toNat = 14 → exec (.encb cs sg) s = exec (.enc cs sg) s)

/-- 41_encode.md R142, R152: the sign test is on bit 63, comes before the size test, and is all that SG
changes. -/
def Obligations.SignTestIsAllThatSgChanges : Prop :=
  ∀ (cs : Bool) (s : State),
    (s.vin.getLsbD 63 = true →
      exec (.enc cs true) s = .next (s.complete (failedRecord 0x0A 1 0 0 0 0))
      ∧ exec (.encb cs true) s = .next (s.complete (failedRecord 0x0A 1 0 0 0 0)))
    ∧ (s.vin.getLsbD 63 = false →
      exec (.enc cs true) s = exec (.enc cs false) s
      ∧ exec (.encb cs true) s = exec (.encb cs false) s)
    ∧ (∃ t, exec (.enc cs false) s = .next t ∧ t.ecause = 0)
    ∧ (∃ t, exec (.encb cs false) s = .next t ∧ t.ecause ≠ 1)

/-- 41_encode.md R147: the bound on DLEN is 14, unsigned, whatever the flag and the value are. -/
def Obligations.DestinationBoundIsFourteen : Prop :=
  ∀ (cs sg : Bool) (s : State), ¬ (sg = true ∧ s.vin.getLsbD 63 = true) →
    (s.dlen.toNat < 14 → exec (.encb cs sg) s = .next (s.complete (failedRecord 0x12 5 0 0 0 0)))
    ∧ (14 ≤ s.dlen.toNat → ∃ t, exec (.encb cs sg) s = .next t ∧ t.status = 0x06)

/-- 41_encode.md R148: on success OSTART = DLEN - OLEN, between DLEN - 14 and DLEN - 1, and once OBUF has been
moved into the destination the string runs from there to the destination's last slot. Its last clause, that
every slot before it is as it was, is the spec's for the slots below DLEN - 14 (20_memory.md R71) and the
model's choice for the slots from DLEN - 14 to OSTART - 1 (log 20). -/
def Obligations.StartOffsetReachesTheDestinationsEnd : Prop :=
  ∀ (cs sg : Bool) (s : State) (before : Nat → Byte),
    ¬ (sg = true ∧ s.vin.getLsbD 63 = true) → 14 ≤ s.dlen.toNat →
    ∃ t, exec (.encb cs sg) s = .next t
      ∧ t.olen.toNat = (encodedString s.vin cs).length
      ∧ t.ostart.toNat = s.dlen.toNat - t.olen.toNat
      ∧ s.dlen.toNat - 14 ≤ t.ostart.toNat ∧ t.ostart.toNat ≤ s.dlen.toNat - 1 ∧ t.ostart.toNat ≤ 254
      ∧ (∀ k (h : k < (encodedString s.vin cs).length),
          destinationSlot s.dlen t.obuf before t.ostart (t.ostart.toNat + k) = (encodedString s.vin cs)[k])
      ∧ t.ostart.toNat + (encodedString s.vin cs).length = s.dlen.toNat
      ∧ (∀ d, d < t.ostart.toNat → destinationSlot s.dlen t.obuf before t.ostart d = before d)

/-- 40_arith_check.md R123: the number of groups, its bounds, when it is 13, that it is the number of rounds of
the encoder's loop, and that it is the smallest n with v < 32^n (30_encoding.md R96). -/
def Obligations.GroupCountIsTheNumberOfRounds : Prop :=
  ∀ (v : Word) (cs : Bool),
    1 ≤ groupCount v ∧ groupCount v ≤ 13
    ∧ (groupCount v = 13 ↔ 2 ^ 60 ≤ v.toNat)
    ∧ (v = 0 → groupCount v = 1)
    ∧ v.toNat < 32 ^ groupCount v
    ∧ (v ≠ 0 → 32 ^ (groupCount v - 1) ≤ v.toNat)
    ∧ (encodeCore v cs).2 + groupCount v + cs.toNat = 14

/-- 41_encode.md R150: the fill index ends in 0 to 13, at 0 exactly with a check symbol and a value of 2^60 or
more, and the loop never has more rounds to make than the 13 the model bounds it by. -/
def Obligations.FillIndexStaysInTheBuffer : Prop :=
  (∀ (v : Word) (cs : Bool),
    (encodeCore v cs).2 ≤ 13 ∧ ((encodeCore v cs).2 = 0 ↔ cs = true ∧ 2 ^ 60 ≤ v.toNat))
  ∧ ∀ (extra : Nat) (w : Word) (ob : Memory) (i : Nat),
      encodeLoop (13 + extra) w ob i = encodeLoop 13 w ob i

/-- 41_encode.md R145: with CS = 1 slot 13 holds the check symbol of the whole operand, the one symbol beyond
the data symbols, with CS = 0 the least significant data symbol, for ENC and for ENCB; the five extra
check symbols are no data symbols. -/
def Obligations.CheckSymbolIsTheLastSymbol : Prop :=
  (∀ (sg : Bool) (s : State), ¬ (sg = true ∧ s.vin.getLsbD 63 = true) →
    (∃ t, exec (.enc true sg) s = .next t ∧ t.obuf.read 13 = encSymbol (s.vin.toNat % 37)
      ∧ t.olen.toNat = groupCount s.vin + 1)
    ∧ (∃ t, exec (.enc false sg) s = .next t ∧ t.obuf.read 13 = encSymbol (s.vin.toNat % 32)
      ∧ t.olen.toNat = groupCount s.vin)
    ∧ (14 ≤ s.dlen.toNat →
        ∃ t, exec (.encb true sg) s = .next t ∧ t.obuf.read 13 = encSymbol (s.vin.toNat % 37)
          ∧ t.olen.toNat = groupCount s.vin + 1)
    ∧ (14 ≤ s.dlen.toNat →
        ∃ t, exec (.encb false sg) s = .next t ∧ t.obuf.read 13 = encSymbol (s.vin.toNat % 32)
          ∧ t.olen.toNat = groupCount s.vin))
  ∧ ∀ v, v < 32 → encSymbol v ∉ ([0x2A, 0x7E, 0x24, 0x3D, 0x55] : List Byte)

/-- 41_encode.md R149: an encode changes no operand and its results depend on VIN (ENCB: and DLEN) alone. -/
def Obligations.EncodeDependsOnItsOperandsAlone : Prop :=
  ∀ (cs sg : Bool) (s s' : State), s.vin = s'.vin →
    (∃ t t', exec (.enc cs sg) s = .next t ∧ exec (.enc cs sg) s' = .next t' ∧ t.results = t'.results
      ∧ t.cmd = s.cmd ∧ t.vin = s.vin ∧ t.dlen = s.dlen ∧ t.ilen = s.ilen ∧ t.ibuf = s.ibuf)
    ∧ (s.dlen = s'.dlen →
      ∃ t t', exec (.encb cs sg) s = .next t ∧ exec (.encb cs sg) s' = .next t' ∧ t.results = t'.results
        ∧ t.cmd = s.cmd ∧ t.vin = s.vin ∧ t.dlen = s.dlen ∧ t.ilen = s.ilen ∧ t.ibuf = s.ibuf)

/-! ### The symbol tables -/

/-- 30_encoding.md R95, which the spec derives from its tables: ENC37 is injective, DATADEC inverts ENC32,
CHKDEC inverts ENC37 and is valid for no other code, and the hyphen is valid in neither decode table. -/
def Obligations.DecodeTablesInvertTheEncodeTable : Prop :=
  enc37.length = 37 ∧ enc37.Nodup
  ∧ (∀ v, v < 32 → dataDec (encSymbol v) = some (BitVec.ofNat 5 v))
  ∧ (∀ v, v < 37 → chkDec (encSymbol v) = some (BitVec.ofNat 6 v))
  ∧ (∀ c : Byte, (chkDec c).isSome = true ↔ c ∈ enc37)
  ∧ dataDec hyphen = none ∧ chkDec hyphen = none

/-- 30_encoding.md R93: the relaxed table, code by code: the 32 codes of the data symbols in the order of their
values, the 22 letters of values 10 to 31 again in lower case, O o as 0, I i L l as 1: 60 in all, and no
other code is valid. -/
def Obligations.RelaxedTableFoldsCaseAndLookalikes : Prop :=
  (([0x30, 0x31, 0x32, 0x33, 0x34, 0x35, 0x36, 0x37, 0x38, 0x39, 0x41, 0x42, 0x43, 0x44]
      ++ [0x45, 0x46, 0x47, 0x48, 0x4A, 0x4B, 0x4D, 0x4E, 0x50, 0x51, 0x52, 0x53, 0x54, 0x56]
      ++ [0x57, 0x58, 0x59, 0x5A] : List Byte).map dataDec
    = (List.range 32).map fun v => some (BitVec.ofNat 5 v))
  ∧ (([0x61, 0x62, 0x63, 0x64, 0x65, 0x66, 0x67, 0x68, 0x6A, 0x6B, 0x6D, 0x6E, 0x70, 0x71]
      ++ [0x72, 0x73, 0x74, 0x76, 0x77, 0x78, 0x79, 0x7A] : List Byte).map dataDec
    = (List.range 22).map fun k => some (BitVec.ofNat 5 (10 + k)))
  ∧ ((List.range 256).filter fun c => (dataDec (BitVec.ofNat 8 c)).isSome).length = 60
  ∧ (∀ v, v < 32 → dataDec (encSymbol v) = some (BitVec.ofNat 5 v))
  ∧ (∀ v, 10 ≤ v → v < 32 → dataDec (encSymbol v + 0x20) = some (BitVec.ofNat 5 v))
  ∧ (∀ c ∈ ([0x30, 0x4F, 0x6F] : List Byte), dataDec c = some 0)
  ∧ (∀ c ∈ ([0x31, 0x49, 0x69, 0x4C, 0x6C] : List Byte), dataDec c = some 1)
  ∧ (∀ c ∈ ([0x55, 0x75, 0x2D, 0x2A, 0x7E, 0x24, 0x3D, 0x20, 0x00] : List Byte), dataDec c = none)
  ∧ (∀ c : Byte, 0x80 ≤ c.toNat → dataDec c = none)

/-! ### The decode family -/

/-- 42_decode.md R172, R173: an ILEN beyond the buffer fails before anything is read, else an empty input
fails, whatever the flag and IBUF are. -/
def Obligations.LengthTestsComeFirst : Prop :=
  ∀ (cs : Bool) (s : State),
    (s.cfg.lmax < s.ilen.toNat →
      exec (.dec cs) s = .next (s.complete (failedRecord 0x2A 11 0 0 0 0)))
    ∧ (s.ilen = 0 → exec (.dec cs) s = .next (s.complete (failedRecord 0x0A 2 0 0 0 0)))

/-- 42_decode.md R190, the closed form the spec derives from R171: on every input of the accepted form DEC
succeeds with VOUT = N mod 2^64, OVF = 1 iff N >= 2^64, and with CS = 1 both check registers the check
symbol's value. -/
def Obligations.DecDeliversTheNumber : Prop :=
  ∀ (s : State) (ds : List (BitVec 5)), lengthOk s → (ds ≠ [] ∨ s.cfg.nodataIsZero = true) →
    (decodesTo (scannedChars s.ibuf s.ilen.toNat) ds →
      exec (.dec false) s = .next (s.complete
        (decodedRecord (BitVec.ofNat 64 (number ds)) (decide (2 ^ 64 ≤ number ds)) 0)))
    ∧ (∀ c rest v, scannedChars s.ibuf s.ilen.toNat = c :: rest → chkDec c = some v →
        decodesTo rest ds → number ds % 2 ^ 64 % 37 = v.toNat →
      exec (.dec true) s = .next (s.complete
        (decodedRecord (BitVec.ofNat 64 (number ds)) (decide (2 ^ 64 ≤ number ds)) (v.setWidth 8))))

/-- The other direction of 42_decode.md R190 and 30_encoding.md R97: DEC succeeds on no other input. -/
def Obligations.DecSucceedsOnAcceptedInputOnly : Prop :=
  ∀ (cs : Bool) (s t : State), exec (.dec cs) s = .next t → statusOk t.status = true →
    lengthOk s ∧ ∃ ds, (ds ≠ [] ∨ s.cfg.nodataIsZero = true)
      ∧ t.vout = BitVec.ofNat 64 (number ds)
      ∧ statusOvf t.status = decide (2 ^ 64 ≤ number ds)
      ∧ (cs = false → decodesTo (scannedChars s.ibuf s.ilen.toNat) ds)
      ∧ (cs = true → ∃ c rest v, scannedChars s.ibuf s.ilen.toNat = c :: rest ∧ chkDec c = some v
          ∧ decodesTo rest ds ∧ number ds % 2 ^ 64 % 37 = v.toNat)

/-- 42_decode.md R178: the last non-hyphen character, not valid in CHKDEC, is reported with its 1-based
position and its code as written; the look-alike and lower-case letters are among those not valid. -/
def Obligations.BadCheckSymbolIsReported : Prop :=
  (∀ (s : State) (k : Nat), lengthOk s → k < s.ilen.toNat →
    (∀ j, k < j → j < s.ilen.toNat → s.ibuf.read j = hyphen) →
    s.ibuf.read k ≠ hyphen → chkDec (s.ibuf.read k) = none →
    exec (.dec true) s = .next (s.complete
      (failedRecord 0x1A 7 (BitVec.ofNat 8 (k + 1)) (s.ibuf.read k) 0 0)))
  ∧ (∀ c ∈ ([0x6F, 0x4F, 0x69, 0x49, 0x6C, 0x4C] : List Byte), chkDec c = none)
  ∧ ∀ c : Byte, 0x61 ≤ c.toNat → c.toNat ≤ 0x7A → chkDec c = none

/-- 42_decode.md R180: the bad data character nearest the end of the input is the one reported, with its
1-based position and its code as written; with CS = 1 the check symbol must have passed first. -/
def Obligations.BadDataSymbolNearestTheEndIsReported : Prop :=
  ∀ (s : State) (k : Nat), lengthOk s → k < s.ilen.toNat →
    s.ibuf.read k ≠ hyphen → dataDec (s.ibuf.read k) = none →
    ((∀ j, k < j → j < s.ilen.toNat →
        s.ibuf.read j = hyphen ∨ (dataDec (s.ibuf.read j)).isSome = true) →
      exec (.dec false) s = .next (s.complete
        (failedRecord 0x1A 6 (BitVec.ofNat 8 (k + 1)) (s.ibuf.read k) 0 0)))
    ∧ (∀ m, k < m → m < s.ilen.toNat → s.ibuf.read m ≠ hyphen →
        (chkDec (s.ibuf.read m)).isSome = true →
        (∀ j, m < j → j < s.ilen.toNat → s.ibuf.read j = hyphen) →
        (∀ j, k < j → j < m → s.ibuf.read j = hyphen ∨ (dataDec (s.ibuf.read j)).isSome = true) →
      exec (.dec true) s = .next (s.complete
        (failedRecord 0x1A 6 (BitVec.ofNat 8 (k + 1)) (s.ibuf.read k) 0 0)))

/-- 42_decode.md R186: an input with no data character fails under the default parameter, with either flag;
under the legacy parameter it decodes to 0, a lone check symbol being verified against 0. -/
def Obligations.NoDataCharacterByParameter : Prop :=
  ∀ s : State, lengthOk s →
    (s.cfg.nodataIsZero = false → scannedChars s.ibuf s.ilen.toNat = [] → ∀ cs,
      exec (.dec cs) s = .next (s.complete (failedRecord 0x0A 3 0 0 0 0)))
    ∧ (s.cfg.nodataIsZero = false → ∀ c v, scannedChars s.ibuf s.ilen.toNat = [c] →
        chkDec c = some v →
      exec (.dec true) s = .next (s.complete (failedRecord 0x0A 3 0 0 0 0)))
    ∧ (s.cfg.nodataIsZero = true → scannedChars s.ibuf s.ilen.toNat = [] →
      exec (.dec false) s = .next (s.complete (decodedRecord 0 false 0)))
    ∧ (s.cfg.nodataIsZero = true → ∀ c v, scannedChars s.ibuf s.ilen.toNat = [c] →
        chkDec c = some v →
      exec (.dec true) s = .next (s.complete
        (if v = 0 then decodedRecord 0 false 0 else failedRecord 0x22 8 0 0 0 (v.setWidth 8))))

/-- 42_decode.md R187: with CS = 1, the legacy parameter and an all-hyphen input DEC fails with
NO_CHECK_SYMBOL, and in no other case. -/
def Obligations.NoCheckSymbolOnlyOnHyphensUnderLegacy : Prop :=
  ∀ s : State,
    (lengthOk s → s.cfg.nodataIsZero = true → scannedChars s.ibuf s.ilen.toNat = [] →
      exec (.dec true) s = .next (s.complete (failedRecord 0x0A 4 0 0 0 0)))
    ∧ (∀ cs t, exec (.dec cs) s = .next t → t.ecause = 4 →
      cs = true ∧ lengthOk s ∧ s.cfg.nodataIsZero = true ∧ scannedChars s.ibuf s.ilen.toNat = [])

/-- 42_decode.md R188: when every character passes and the check values differ DEC fails with both of them in
the diagnostic registers; the computed one is that of the wrapped value. -/
def Obligations.CheckMismatchReportsBothValues : Prop :=
  ∀ (s : State) (ds : List (BitVec 5)) (c : Byte) (rest : List Byte) (v : BitVec 6),
    lengthOk s → (ds ≠ [] ∨ s.cfg.nodataIsZero = true) →
    scannedChars s.ibuf s.ilen.toNat = c :: rest → chkDec c = some v → decodesTo rest ds →
    number ds % 2 ^ 64 % 37 ≠ v.toNat →
    exec (.dec true) s = .next (s.complete
      (failedRecord 0x22 8 0 0 (BitVec.ofNat 8 (number ds % 2 ^ 64 % 37)) (v.setWidth 8)))

/-- 42_decode.md R193: DEC changes no operand, and its results depend on ILEN and on the characters below ILEN
alone (for one setting of the parameters). -/
def Obligations.DecDependsOnItsInputAlone : Prop :=
  ∀ (cs : Bool) (s s' : State), s.cfg = s'.cfg → s.ilen = s'.ilen →
    (∀ k, k < s.ilen.toNat → s.ibuf.read k = s'.ibuf.read k) →
    ∃ t t', exec (.dec cs) s = .next t ∧ exec (.dec cs) s' = .next t' ∧ t.results = t'.results
      ∧ t.cmd = s.cmd ∧ t.vin = s.vin ∧ t.dlen = s.dlen ∧ t.ilen = s.ilen ∧ t.ibuf = s.ibuf

/-- 42_decode.md R176: a hyphen changes nothing the scan keeps, with either flag and whether or not the check
symbol has been met, so hyphens are skipped wherever they stand: two inputs with the same non-hyphen
characters give the same results but for the position of a bad character, which counts hyphens (R180). -/
def Obligations.HyphensAreSkipped : Prop :=
  (∀ (cs : Bool) (k : Nat) (a : Scan), scanChar cs k hyphen a = .ok a)
  ∧ ∀ (cs : Bool) (s s' : State), s.cfg = s'.cfg → lengthOk s → lengthOk s' →
    scannedChars s.ibuf s.ilen.toNat = scannedChars s'.ibuf s'.ilen.toNat →
    ∃ t t', exec (.dec cs) s = .next t ∧ exec (.dec cs) s' = .next t'
      ∧ { t.results with epos := 0 } = { t'.results with epos := 0 }

/-- 40_arith_check.md R130: decoding what ENC wrote, under the same check symbol setting, gives the value back
with OVF = 0 and, with CS = 1, both check registers v mod 37. -/
def Obligations.DecodeOfEncodeIsTheValue : Prop :=
  ∀ (cs : Bool) (s u : State), 14 ≤ u.cfg.lmax →
    ∃ t, exec (.enc cs false) s = .next t
      ∧ (u.ilen = t.olen →
        (∀ k, k < t.olen.toNat → u.ibuf.read k = t.obuf.read (14 - t.olen.toNat + k)) →
        exec (.dec cs) u = .next (u.complete (decodedRecord s.vin false
          (if cs = true then BitVec.ofNat 8 (s.vin.toNat % 37) else 0))))

/-! ### The completion record -/

/-- The frame of every operation (60_exceptions.md R213, its last sentence): CMD, VIN, DLEN, ILEN and every
slot of IBUF are left as they were, and so are the parameters and HOST's side. -/
def Obligations.CompletionLeavesOperandsAlone : Prop :=
  ∀ (i : Instr) (s : State), ∃ t, exec i s = .next t
    ∧ t.cmd = s.cmd ∧ t.vin = s.vin ∧ t.dlen = s.dlen ∧ t.ilen = s.ilen
    ∧ (∀ k, t.ibuf.read k = s.ibuf.read k) ∧ t.ibuf = s.ibuf
    ∧ t.cfg = s.cfg ∧ t.script = s.script ∧ t.seen = s.seen ∧ t.turns = s.turns ∧ t.draws = s.draws

/-- Every operation completes, from every state, with BUSY = 0, DONE = 1 and a record of one of the legal
forms (10_state.md R46; 60_exceptions.md R213, R222). -/
def Obligations.EveryOperationCompletesWithALegalRecord : Prop :=
  ∀ (i : Instr) (s : State), ∃ t, exec i s = .next t
    ∧ t.busy = false ∧ t.donePin = true
    ∧ (FailedRecord t.cfg t.results ∨ EncodedRecord t.results ∨ DecodedRecord t.results)

/-- 60_exceptions.md R214: an operation delivers all its results or none. After a failure there is no value, no
symbol and no length, only the failure's record. After a success there is no cause and no diagnostic, and
the results are all there: the whole canonical string with its length and its index for an encode, the
number the data characters denote with its overflow note and the check values for a decode. -/
def Obligations.OperationDeliversAllOrNothing : Prop :=
  ∀ (i : Instr) (s : State), ∃ t, exec i s = .next t
    ∧ (statusOk t.status = false →
        t.vout = 0 ∧ (∀ j, t.obuf.read j = 0) ∧ t.olen = 0 ∧ t.ostart = 0
        ∧ statusOvf t.status = false ∧ statusErr t.status ≠ 0 ∧ t.ecause ≠ 0
        ∧ (statusErr t.status ≠ 3 → t.epos = 0 ∧ t.echr = 0)
        ∧ (statusErr t.status ≠ 4 → t.ckcalc = 0 ∧ t.cksym = 0))
    ∧ (statusOk t.status = true →
        statusErr t.status = 0 ∧ t.ecause = 0 ∧ t.epos = 0 ∧ t.echr = 0 ∧ t.ckcalc = t.cksym
        ∧ (i.mnemonic = "DEC" → (∀ j, t.obuf.read j = 0) ∧ t.olen = 0 ∧ t.ostart = 0)
        ∧ (i.mnemonic ≠ "DEC" → t.vout = 0 ∧ t.ckcalc = 0 ∧ statusOvf t.status = false
            ∧ 1 ≤ t.olen.toNat ∧ t.olen.toNat ≤ 14)
        ∧ (∀ cs sg, i = .enc cs sg → holdsString t.obuf (encodedString s.vin cs)
            ∧ t.olen.toNat = (encodedString s.vin cs).length ∧ t.ostart.toNat = 14 - t.olen.toNat)
        ∧ (∀ cs sg, i = .encb cs sg → holdsString t.obuf (encodedString s.vin cs)
            ∧ t.olen.toNat = (encodedString s.vin cs).length
            ∧ t.ostart.toNat = s.dlen.toNat - t.olen.toNat)
        ∧ (i = .dec false → ∃ ds, decodesTo (scannedChars s.ibuf s.ilen.toNat) ds
            ∧ t.vout = BitVec.ofNat 64 (number ds)
            ∧ statusOvf t.status = decide (2 ^ 64 ≤ number ds) ∧ t.ckcalc = 0)
        ∧ (i = .dec true → ∃ c rest v ds, scannedChars s.ibuf s.ilen.toNat = c :: rest
            ∧ chkDec c = some v ∧ decodesTo rest ds
            ∧ t.vout = BitVec.ofNat 64 (number ds)
            ∧ statusOvf t.status = decide (2 ^ 64 ≤ number ds) ∧ t.ckcalc = v.setWidth 8))

/-- Each cause belongs to exactly one kind (the first three columns of 60_exceptions.md R211, and the kinds'
codes of R210). -/
def Obligations.CauseDeterminesKind : Prop :=
  ∀ (i : Instr) (s : State), ∃ t, exec i s = .next t
    ∧ t.ecause.toNat ≤ 11
    ∧ (t.ecause = 0 ↔ statusOk t.status = true)
    ∧ (t.ecause.toNat ∈ [1, 2, 3, 4] ↔ statusErr t.status = 1)
    ∧ (t.ecause = 5 ↔ statusErr t.status = 2)
    ∧ (t.ecause.toNat ∈ [6, 7] ↔ statusErr t.status = 3)
    ∧ (t.ecause = 8 ↔ statusErr t.status = 4)
    ∧ (t.ecause.toNat ∈ [9, 10, 11] ↔ statusErr t.status = 5)

/-- 60_exceptions.md R212, which the spec derives from R211: which operation can fail how; an ENC with SG =
0 cannot fail at all. -/
def Obligations.OperationsFailOnlyAsListed : Prop :=
  ∀ s : State,
    (∀ cs, ∃ t, exec (.enc cs false) s = .next t ∧ t.ecause = 0)
    ∧ (∀ cs, ∃ t, exec (.enc cs true) s = .next t ∧ t.ecause.toNat ∈ [0, 1])
    ∧ (∀ cs sg, ∃ t, exec (.encb cs sg) s = .next t ∧ t.ecause.toNat ∈ [0, 1, 5])
    ∧ (∃ t, exec (.dec false) s = .next t ∧ t.ecause.toNat ∈ [0, 2, 3, 6, 11])
    ∧ (∃ t, exec (.dec true) s = .next t ∧ t.ecause.toNat ∈ [0, 2, 3, 4, 6, 7, 8, 11])
    ∧ (∀ c, ¬ (decode c).legal = true →
        ∃ t, exec (decode c) s = .next t ∧ t.ecause.toNat ∈ [9, 10])

/-- 60_exceptions.md R216: a retry gives the same record, and so do the same command, operands and IBUF on any
other state (for one setting of the parameters); a completion leaves no operation to run. -/
def Obligations.RetryGivesTheSameRecord : Prop :=
  ∀ (i : Instr) (s s' : State), ∃ t t', exec i s = .next t ∧ exec i s' = .next t'
    ∧ exec i t = .next t ∧ t.busy = false
    ∧ (s.vin = s'.vin → s.dlen = s'.dlen → s.ilen = s'.ilen → s.ibuf = s'.ibuf → s.cfg = s'.cfg →
        t.results = t'.results)

/-- 60_exceptions.md R217: after any completion, failed or not, BUSY = 0 and the next CMD write starts a new
operation and clears the error fields. -/
def Obligations.BlockIsReadyAfterAnyCompletion : Prop :=
  ∀ (i : Instr) (s : State) (c : Byte) (rest : List HostStep), ∃ t, exec i s = .next t
    ∧ t.busy = false
    ∧ hostStep { t with script := .wr (.reg .cmd) (c.setWidth 64) :: rest }
        = .next { t with cmd := c, status := 0x01, script := rest }

/-! ### HOST's steps -/

/-- 10_state.md R40: a read returns the stored value and changes nothing but what HOST knows: of CMD, STATUS and
the operands at any time, of a result while BUSY = 0. -/
def Obligations.ReadReturnsTheStoredValue : Prop :=
  (∀ (s : State) (a : HostAddr) (rest : List HostStep),
    s.script = .rd a :: rest → addressExists s.cfg a = true → s.busy = false ∨ isResult a = false →
    hostStep s = .next { s with script := rest, seen := (a, storedValue s a) :: s.seen })
  ∧ (∀ a, isResult a = false ↔
      (a ∈ [.reg .cmd, .reg .status, .reg .vin, .reg .dlen, .reg .ilen] ∨ ∃ i, a = .ibuf i))
  ∧ ∀ s : State,
      storedValue s (.reg .cmd) = s.cmd.setWidth 64 ∧ storedValue s (.reg .status) = s.status.setWidth 64
      ∧ storedValue s (.reg .vin) = s.vin ∧ storedValue s (.reg .dlen) = s.dlen.setWidth 64
      ∧ storedValue s (.reg .ilen) = s.ilen.setWidth 64 ∧ storedValue s (.reg .vout) = s.vout
      ∧ storedValue s (.reg .ostart) = s.ostart.setWidth 64
      ∧ storedValue s (.reg .olen) = s.olen.setWidth 64
      ∧ storedValue s (.reg .epos) = s.epos.setWidth 64
      ∧ storedValue s (.reg .echr) = s.echr.setWidth 64
      ∧ storedValue s (.reg .ckcalc) = s.ckcalc.setWidth 64
      ∧ storedValue s (.reg .cksym) = s.cksym.setWidth 64
      ∧ storedValue s (.reg .ecause) = s.ecause.setWidth 64
      ∧ (∀ i, storedValue s (.ibuf i) = (s.ibuf.read i).setWidth 64)
      ∧ ∀ i, storedValue s (.obuf i) = (s.obuf.read i).setWidth 64

/-- 10_state.md R41: while BUSY = 0 an operand register or one slot of IBUF takes the value written and nothing
else changes. -/
def Obligations.OperandWriteTakesTheValue : Prop :=
  ∀ (s : State) (rest : List HostStep), s.busy = false →
    (∀ v, hostStep { s with script := .wr (.reg .vin) v :: rest }
        = .next { s with vin := v, script := rest })
    ∧ (∀ b : Byte, hostStep { s with script := .wr (.reg .dlen) (b.setWidth 64) :: rest }
        = .next { s with dlen := b, script := rest })
    ∧ (∀ b : Byte, hostStep { s with script := .wr (.reg .ilen) (b.setWidth 64) :: rest }
        = .next { s with ilen := b, script := rest })
    ∧ (∀ (i : Nat) (b : Byte), i < s.cfg.lmax → s.ibuf.wf = true →
        ∃ m : Memory, hostStep { s with script := .wr (.ibuf i) (b.setWidth 64) :: rest }
            = .next { s with ibuf := m, script := rest }
          ∧ m.wf = true ∧ m.read i = b ∧ ∀ j, j ≠ i → m.read j = s.ibuf.read j)

/-- 10_state.md R42: while BUSY = 0 a write of any byte to CMD stores it, sets STATUS to 0x01 and changes
nothing else; an operation is then running, and every result register but STATUS reads as unspecified. -/
def Obligations.CommandWriteStartsAnOperation : Prop :=
  ∀ (s : State) (c : Byte) (rest : List HostStep), s.busy = false →
    ∃ t, hostStep { s with script := .wr (.reg .cmd) (c.setWidth 64) :: rest } = .next t
      ∧ t = { s with cmd := c, status := 0x01, script := rest }
      ∧ t.busy = true ∧ ∀ a, isResult a = true → readIsUnspecified t a = true

/-- 10_state.md R43: while BUSY = 1 a write to CMD, VIN, DLEN, ILEN or a slot of IBUF is lost: no state
changes. -/
def Obligations.WriteWhileBusyIsLost : Prop :=
  ∀ (s : State) (a : HostAddr) (v : Word) (rest : List HostStep), s.busy = true →
    (a ∈ [.reg .cmd, .reg .vin, .reg .dlen, .reg .ilen] ∨ ∃ i, i < s.cfg.lmax ∧ a = .ibuf i) →
    valueFits a v = true →
    hostStep { s with script := .wr a v :: rest } = .next { s with script := rest }

/-- 10_state.md R44: a write to STATUS, a result register or a slot of OBUF is ignored at all times. -/
def Obligations.WriteToReadOnlyStateIsIgnored : Prop :=
  ∀ (s : State) (a : HostAddr) (v : Word) (rest : List HostStep),
    (a ∈ [.reg .status, .reg .vout, .reg .ostart, .reg .olen, .reg .epos, .reg .echr, .reg .ckcalc,
        .reg .cksym, .reg .ecause] ∨ ∃ i, i < 14 ∧ a = .obuf i) →
    valueFits a v = true →
    hostStep { s with script := .wr a v :: rest } = .next { s with script := rest }

/-- 10_state.md R45: while BUSY = 1 a read of a result register or a slot of OBUF returns a value of the
register's width of which nothing is known, and changes nothing; STATUS then reads 0x01, and CMD what it
holds. That the model draws the value, the next free one at each read, is its choice (log 3), and so is
that the reserved bits are free with the rest (log 21). -/
def Obligations.BusyResultReadIsUnspecified : Prop :=
  ∀ (s : State) (rest : List HostStep), s.busy = true →
    (∀ a, (a ∈ [.reg .vout, .reg .ostart, .reg .olen, .reg .epos, .reg .echr, .reg .ckcalc,
          .reg .cksym, .reg .ecause] ∨ ∃ i, i < 14 ∧ a = .obuf i) →
      (unspecifiedValue a s.draws).toNat < 2 ^ elementWidth a
      ∧ hostStep { s with script := .rd a :: rest }
          = .next { s with
              script := rest
              seen := (a, unspecifiedValue a s.draws) :: s.seen
              draws := s.draws + 1 })
    ∧ (legalStatus s.status = true →
      hostStep { s with script := .rd (.reg .status) :: rest }
        = .next { s with script := rest, seen := (.reg .status, 0x01) :: s.seen })
    ∧ hostStep { s with script := .rd (.reg .cmd) :: rest }
        = .next { s with script := rest, seen := (.reg .cmd, s.cmd.setWidth 64) :: s.seen }

/-- 20_memory.md R62: the addresses HOST can present; a host program that uses another is refused. -/
def Obligations.OnlyListedAddressesAreServed : Prop :=
  (∀ (cfg : Config) (a : HostAddr), addressExists cfg a = true ↔
    ((∃ r, a = .reg r) ∨ (∃ i, i < cfg.lmax ∧ a = .ibuf i) ∨ ∃ i, i < 14 ∧ a = .obuf i))
  ∧ (∀ n, n < 13 → ∃ r, regNumber r = n) ∧ (∀ r, regNumber r < 13)
  ∧ ∀ (s : State) (a : HostAddr) (v : Word) (rest : List HostStep), addressExists s.cfg a = false →
      hostStep { s with script := .rd a :: rest } = .refused (.unmappedAddress a)
      ∧ hostStep { s with script := .wr a v :: rest } = .refused (.unmappedAddress a)

/-- 10_state.md R47: asserting rst, busy or not, makes every register and every slot 0 and starts no operation;
State.reset is such a state. -/
def Obligations.ResetClearsTheBlock : Prop :=
  (∀ (s : State) (rest : List HostStep), s.script = .rst :: rest →
    ∃ t, hostStep s = .next t ∧ t.busy = false
      ∧ t.cmd = 0 ∧ t.status = 0 ∧ t.vin = 0 ∧ t.dlen = 0 ∧ t.ilen = 0 ∧ t.vout = 0 ∧ t.ostart = 0
      ∧ t.olen = 0 ∧ t.epos = 0 ∧ t.echr = 0 ∧ t.ckcalc = 0 ∧ t.cksym = 0 ∧ t.ecause = 0
      ∧ (∀ i, t.ibuf.read i = 0) ∧ ∀ i, t.obuf.read i = 0)
  ∧ State.reset.busy = false
  ∧ State.reset.cmd = 0 ∧ State.reset.status = 0 ∧ State.reset.vin = 0 ∧ State.reset.dlen = 0
  ∧ State.reset.ilen = 0 ∧ State.reset.vout = 0 ∧ State.reset.ostart = 0 ∧ State.reset.olen = 0
  ∧ State.reset.epos = 0 ∧ State.reset.echr = 0 ∧ State.reset.ckcalc = 0 ∧ State.reset.cksym = 0
  ∧ State.reset.ecause = 0
  ∧ (∀ i, State.reset.ibuf.read i = 0) ∧ ∀ i, State.reset.obuf.read i = 0

/-- WAIT is a poll of STATUS: one read a step, again and again until the value read has DONE set
(30_encoding.md Part C; the program as a list is log 1). -/
def Obligations.WaitPollsUntilDone : Prop :=
  ∀ (s : State) (rest : List HostStep), s.script = .wait :: rest →
    hostStep s = .next { s with
      script := if statusDone s.status = true then rest else .wait :: rest
      seen := (.reg .status, s.status.setWidth 64) :: s.seen }

/-! ### Whole-machine rules -/

/-- Every started operation completes (10_state.md R46): whatever the schedule, within as many steps as it has
entries and one more (the bound is log 2), for a host program that is not refused and asserts no reset,
DONE = 1 and the results are those of the operation in CMD on the operands it was started with. A reset is
the only way it can fail to complete (70_reset_and_hazards.md R252), and with one BUSY is 0 as soon. -/
def Obligations.EngineCompletesWithinTheSchedule : Prop :=
  ∀ s : State, s.busy = true → (∀ h ∈ s.script, HostStep.plain s.cfg h = true) →
    (.rst ∉ s.script →
      ∃ k t u, k ≤ s.turns.length + 1 ∧ runFor k s = .next t ∧ t.busy = false ∧ t.donePin = true
        ∧ exec (decode s.cmd) s = .next u ∧ t.results = u.results
        ∧ t.cmd = s.cmd ∧ t.vin = s.vin ∧ t.dlen = s.dlen ∧ t.ilen = s.ilen ∧ t.ibuf = s.ibuf)
    ∧ ∃ k t, k ≤ s.turns.length + 1 ∧ runFor k s = .next t ∧ t.busy = false

/-- A host program of plain reads, writes, waits and resets is never refused, and no step stops the machine
(60_exceptions.md section 3). -/
def Obligations.PlainProgramIsNeverRefused : Prop :=
  ∀ s : State, (∀ h ∈ s.script, HostStep.plain s.cfg h = true) →
    ∃ t, step s = .next t ∧ ∀ h ∈ t.script, HostStep.plain t.cfg h = true

/-- The invariant of the state's shape: parameters in range, both buffers canonical and within their slots,
STATUS one of its nine values (10_state.md section 2, 20_memory.md section 1). -/
def Obligations.StepKeepsTheShape : Prop :=
  ∀ s t : State, s.Shape → step s = .next t → t.Shape

/-- The reset state has the shape. -/
def Obligations.ResetHasTheShape : Prop := State.reset.Shape

/-- The invariant of the completion record: zeros until something has completed, then always a record that some
legal failure, encode or decode leaves (10_state.md section 2, 60_exceptions.md section 2). -/
def Obligations.StepKeepsTheRecordLegal : Prop :=
  ∀ s t : State, s.RecordLegal → step s = .next t → t.RecordLegal

/-- The reset state's record is legal. -/
def Obligations.ResetRecordIsLegal : Prop := State.reset.RecordLegal

/-- Results stay from a completion until the next accepted CMD write or reset (70_reset_and_hazards.md
section 2): while BUSY = 0 a step leaves every result register alone unless it is one of those two. -/
def Obligations.ResultsStayUntilTheNextCommand : Prop :=
  ∀ s t : State, s.busy = false → step s = .next t →
    t.results = s.results
    ∨ (∃ v, s.writesCommand v ∧ t.status = 0x01 ∧ t.cmd = v.setWidth 8
        ∧ { t.results with status := s.status } = s.results)
    ∨ ∃ rest, s.script = .rst :: rest ∧ t.results = State.reset.results

/-- The operands an operation sees are those stored at the CMD write that started it (10_state.md section 5):
while BUSY = 1 no step but the reset changes CMD, an operand register or IBUF, the completion included,
also when the reset is what HOST would do next. The other case is the step that is the reset. -/
def Obligations.OperandsAreLatchedWhileBusy : Prop :=
  ∀ s t : State, s.busy = true → step s = .next t →
    (t.cmd = s.cmd ∧ t.vin = s.vin ∧ t.dlen = s.dlen ∧ t.ilen = s.ilen ∧ t.ibuf = s.ibuf)
    ∨ (nextAgent s = some .host
      ∧ ∃ rest, s.script = .rst :: rest ∧ t = s.popTurn.blockReset.withScript rest)

/-- An operation starts only by a CMD write (10_state.md section 6), and an abandoned one never completes
(70_reset_and_hazards.md section 1): BUSY rises only at an accepted CMD write, and from STATUS = 0x00
nothing else changes STATUS. -/
def Obligations.OnlyACommandWriteStartsAnOperation : Prop :=
  ∀ s t : State, s.busy = false → step s = .next t →
    (t.busy = true → ∃ v, s.writesCommand v ∧ t.cmd = v.setWidth 8 ∧ t.status = 0x01)
    ∧ (s.status = 0 → t.status = 0 ∨ ∃ v, s.writesCommand v ∧ t.status = 0x01)

/-- No step changes the parameters of the implementation (00_scope.md section 5, log 4). -/
def Obligations.ParametersNeverChange : Prop :=
  ∀ s t : State, step s = .next t → t.cfg = s.cfg

/-- The transaction of an ENC statement (30_encoding.md Part C), under every schedule (log 2): HOST comes to the
end of its WAIT with the canonical string in OBUF. -/
def Obligations.EncTransactionDeliversTheString : Prop :=
  ∀ (s : State) (cs sg : Bool) (v : Word) (rest : List HostStep), s.busy = false →
    s.script = HostStmt.expand (.enc cs sg v) ++ rest → ¬ (sg = true ∧ v.getLsbD 63 = true) →
    ∃ k t ob, runFor k s = .next t ∧ t.script = rest ∧ t.busy = false ∧ t.vin = v
      ∧ holdsString ob (encodedString v cs)
      ∧ t.results = encodedRecord ob (encodedString v cs).length (14 - (encodedString v cs).length)

/-- The transaction of a DEC statement (30_encoding.md Part C), under every schedule (log 2): HOST comes to the
end of its WAIT with the string in IBUF, its length in ILEN, and the results DEC gives on that input. -/
def Obligations.DecTransactionDecodesTheString : Prop :=
  ∀ (s : State) (cs : Bool) (str : List Byte) (rest : List HostStep), s.busy = false →
    s.ibuf.wf = true → str.length ≤ s.cfg.lmax → s.cfg.lmax ≤ 255 →
    s.script = HostStmt.expand (.dec cs str) ++ rest →
    ∃ k t, runFor k s = .next t ∧ t.script = rest ∧ t.busy = false
      ∧ t.ilen.toNat = str.length ∧ inputChars t.ibuf str.length = str
      ∧ exec (.dec cs) t = .next t

/-- COPYOUT (30_encoding.md Part C), under every schedule: the populated region of OBUF comes to stand at the
front of IBUF and its length in ILEN, and no result register changes. -/
def Obligations.CopyOutMovesTheString : Prop :=
  ∀ (s : State) (rest : List HostStep), s.busy = false → s.ibuf.wf = true →
    s.olen.toNat ≤ 14 → 14 ≤ s.cfg.lmax → s.script = .copyOut :: rest →
    ∃ k t, runFor k s = .next t ∧ t.script = rest ∧ t.ilen = s.olen ∧ t.results = s.results
      ∧ ∀ j, j < s.olen.toNat → t.ibuf.read j = s.obuf.read (14 - s.olen.toNat + j)

/-! ### The codes of the tables -/

/-- 30_encoding.md R91, R92, R94: which code stands for which value, entry by entry: ENC37 (its first 32 entries
are ENC32) holds the codes of the spec's two tables in their order; CHKDEC gives each of the 37 codes of
the spec's table its value and is valid for no other; U is a check symbol only. The codes are the spec's
own (log 17). -/
def Obligations.SymbolTablesHoldTheListedCodes : Prop :=
  (List.range 37).map encSymbol =
      [0x30, 0x31, 0x32, 0x33, 0x34, 0x35, 0x36, 0x37, 0x38, 0x39, 0x41, 0x42, 0x43, 0x44]
      ++ [0x45, 0x46, 0x47, 0x48, 0x4A, 0x4B, 0x4D, 0x4E, 0x50, 0x51, 0x52, 0x53, 0x54, 0x56]
      ++ [0x57, 0x58, 0x59, 0x5A, 0x2A, 0x7E, 0x24, 0x3D, 0x55]
  ∧ (([0x30, 0x31, 0x32, 0x33, 0x34, 0x35, 0x36, 0x37, 0x38, 0x39, 0x41, 0x42, 0x43, 0x44]
      ++ [0x45, 0x46, 0x47, 0x48, 0x4A, 0x4B, 0x4D, 0x4E, 0x50, 0x51, 0x52, 0x53, 0x54, 0x56]
      ++ [0x57, 0x58, 0x59, 0x5A, 0x2A, 0x7E, 0x24, 0x3D, 0x55] : List Byte).map chkDec
    = (List.range 37).map fun v => some (BitVec.ofNat 6 v))
  ∧ ((List.range 256).filter fun c => (chkDec (BitVec.ofNat 8 c)).isSome).length = 37
  ∧ (∀ v, v < 32 → encSymbol v ≠ 0x55) ∧ dataDec 0x55 = none
end

