-- ==== Sys2Proof/Laws/Memory.lean ====
section
/-! SUPPORT. The laws of one buffer: a read after a write, and the canonical form and the bound kept by
every write. -/

namespace Sys2Proof.Machine

@[simp] theorem Memory.read_nil (i : Nat) : Memory.read [] i = 0#8 := rfl

@[simp] theorem Memory.wf_nil : Memory.wf [] = true := rfl

@[simp] theorem Memory.below_nil (n : Nat) : Memory.below n [] = true := rfl

theorem Memory.wfFrom_cons {lo a : Nat} {b : Byte} {m : Memory} :
    Memory.wfFrom lo ((a, b) :: m) = true ↔ lo ≤ a ∧ b ≠ 0#8 ∧ Memory.wfFrom (a + 1) m = true := by
  simp [Memory.wfFrom, and_assoc]

theorem Memory.wfFrom_mono {lo lo' : Nat} {m : Memory} (h : lo ≤ lo') (hw : Memory.wfFrom lo' m = true) :
    Memory.wfFrom lo m = true := by
  cases m with
  | nil => rfl
  | cons c m =>
    obtain ⟨a, b⟩ := c
    rw [wfFrom_cons] at hw ⊢
    exact ⟨by omega, hw.2⟩

/-- An index below every listed one reads 0x00. -/
theorem Memory.read_of_wfFrom {lo i : Nat} {m : Memory} (hw : Memory.wfFrom lo m = true) (h : i < lo) :
    m.read i = 0#8 := by
  induction m generalizing lo with
  | nil => rfl
  | cons c m ih =>
    obtain ⟨a, b⟩ := c
    rw [wfFrom_cons] at hw
    simp only [Memory.read, if_neg (show a ≠ i by omega)]
    exact ih hw.2.2 (by omega)

/-- A write leaves the canonical form, from any lower bound the index respects. -/
theorem Memory.write_wfFrom {lo i : Nat} {b : Byte} {m : Memory} (hw : Memory.wfFrom lo m = true)
    (h : lo ≤ i) : Memory.wfFrom lo (m.write i b) = true := by
  induction m generalizing lo with
  | nil =>
    by_cases hb : b = 0#8
    · simp [Memory.write, hb, Memory.wfFrom]
    · simp [Memory.write, hb, Memory.wfFrom, h]
  | cons c m ih =>
    obtain ⟨a, d⟩ := c
    have hc := wfFrom_cons.mp hw
    rcases Nat.lt_trichotomy i a with hlt | heq | hgt
    · by_cases hb : b = 0#8
      · simpa [Memory.write, hlt, hb] using hw
      · rw [Memory.write, if_pos hlt, if_neg hb, wfFrom_cons, wfFrom_cons]
        exact ⟨h, hb, by omega, hc.2⟩
    · subst heq
      by_cases hb : b = 0#8
      · simpa [Memory.write, hb] using wfFrom_mono (by omega) hc.2.2
      · rw [Memory.write, if_neg (lt_irrefl i), if_pos rfl, if_neg hb, wfFrom_cons]
        exact ⟨h, hb, hc.2.2⟩
    · rw [Memory.write, if_neg (by omega), if_neg (by omega), wfFrom_cons]
      exact ⟨hc.1, hc.2.1, ih hc.2.2 (by omega)⟩

/-- Every write keeps the canonical form. -/
theorem Memory.write_wf {i : Nat} {b : Byte} {m : Memory} (hw : m.wf = true) :
    (m.write i b).wf = true := write_wfFrom hw (Nat.zero_le i)

/-- A read after a write to the same index gives the value written. -/
theorem Memory.read_write_same {i : Nat} {b : Byte} {m : Memory} {lo : Nat}
    (hw : Memory.wfFrom lo m = true) : (m.write i b).read i = b := by
  induction m generalizing lo with
  | nil => by_cases hb : b = 0#8 <;> simp [Memory.write, Memory.read, hb]
  | cons c m ih =>
    obtain ⟨a, d⟩ := c
    have hc := wfFrom_cons.mp hw
    rcases Nat.lt_trichotomy i a with hlt | heq | hgt
    · by_cases hb : b = 0#8
      · rw [Memory.write, if_pos hlt, if_pos hb, hb]
        exact read_of_wfFrom (lo := a) (wfFrom_cons.mpr ⟨le_refl a, hc.2⟩) hlt
      · simp [Memory.write, hlt, hb, Memory.read]
    · subst heq
      by_cases hb : b = 0#8
      · rw [Memory.write, if_neg (lt_irrefl i), if_pos rfl, if_pos hb, hb]
        exact read_of_wfFrom hc.2.2 (by omega)
      · simp [Memory.write, hb, Memory.read]
    · rw [Memory.write, if_neg (by omega), if_neg (by omega), Memory.read, if_neg (by omega)]
      exact ih hc.2.2

/-- A write leaves every other index alone. -/
theorem Memory.read_write_ne {i j : Nat} {b : Byte} {m : Memory} (h : j ≠ i) :
    (m.write i b).read j = m.read j := by
  induction m with
  | nil => by_cases hb : b = 0#8 <;> simp [Memory.write, Memory.read, hb, Ne.symm h]
  | cons c m ih =>
    obtain ⟨a, d⟩ := c
    rcases Nat.lt_trichotomy i a with hlt | heq | hgt
    · by_cases hb : b = 0#8 <;> simp [Memory.write, hlt, hb, Memory.read, Ne.symm h]
    · subst heq
      by_cases hb : b = 0#8 <;> simp [Memory.write, hb, Memory.read, Ne.symm h]
    · rw [Memory.write, if_neg (by omega), if_neg (by omega), Memory.read, Memory.read, ih]

/-- A write below `n` keeps every listed index below `n`. -/
theorem Memory.write_below {n i : Nat} {b : Byte} {m : Memory} (hm : m.below n = true) (h : i < n) :
    (m.write i b).below n = true := by
  induction m with
  | nil => by_cases hb : b = 0#8 <;> simp [Memory.write, Memory.below, hb, h]
  | cons c m ih =>
    obtain ⟨a, d⟩ := c
    simp only [Memory.below, List.all_cons, Bool.and_eq_true, decide_eq_true_eq] at hm ih ⊢
    rcases Nat.lt_trichotomy i a with hlt | heq | hgt
    · by_cases hb : b = 0#8 <;> simp [Memory.write, hlt, hb, h] <;> simpa using hm
    · subst heq
      by_cases hb : b = 0#8 <;> simp [Memory.write, hb, h] <;> simpa using hm.2
    · rw [Memory.write, if_neg (by omega), if_neg (by omega)]
      simp only [List.all_cons, Bool.and_eq_true, decide_eq_true_eq]
      exact ⟨hm.1, ih hm.2⟩

/-- An index at or above the bound reads 0x00. -/
theorem Memory.read_of_below {n i : Nat} {m : Memory} (hm : m.below n = true) (h : n ≤ i) :
    m.read i = 0#8 := by
  induction m with
  | nil => rfl
  | cons c m ih =>
    obtain ⟨a, d⟩ := c
    simp only [Memory.below, List.all_cons, Bool.and_eq_true, decide_eq_true_eq] at hm ih
    rw [Memory.read, if_neg (by omega)]
    exact ih hm.2

/-- A canonical buffer that reads 0x00 at and above `n` lists nothing there. -/
theorem Memory.below_of_read {lo n : Nat} {m : Memory} (hw : Memory.wfFrom lo m = true)
    (h : ∀ i, n ≤ i → m.read i = 0#8) : m.below n = true := by
  induction m generalizing lo with
  | nil => rfl
  | cons c m ih =>
    obtain ⟨a, d⟩ := c
    have hc := wfFrom_cons.mp hw
    have ha : a < n := by
      rcases Nat.lt_or_ge a n with hlt | hge
      · exact hlt
      · exact absurd (by simpa [Memory.read] using h a hge) hc.2.1
    have htail : Memory.below n m = true := ih hc.2.2 fun i hi => by
      have := h i hi
      rwa [Memory.read, if_neg (by omega)] at this
    simp only [Memory.below, List.all_cons, Bool.and_eq_true, decide_eq_true_eq] at htail ⊢
    exact ⟨ha, htail⟩

/-- Two canonical buffers that read alike everywhere are equal data. -/
theorem Memory.ext_of_read {lo : Nat} {m m' : Memory} (hw : Memory.wfFrom lo m = true)
    (hw' : Memory.wfFrom lo m' = true) (h : ∀ i, m.read i = m'.read i) : m = m' := by
  induction m generalizing m' lo with
  | nil =>
    cases m' with
    | nil => rfl
    | cons c m' =>
      obtain ⟨a, d⟩ := c
      have hc := wfFrom_cons.mp hw'
      have := h a
      simp [Memory.read] at this
      exact absurd this.symm hc.2.1
  | cons c m ih =>
    obtain ⟨a, d⟩ := c
    have hc := wfFrom_cons.mp hw
    cases m' with
    | nil =>
      have := h a
      simp [Memory.read] at this
      exact absurd this hc.2.1
    | cons c' m' =>
      obtain ⟨a', d'⟩ := c'
      have hc' := wfFrom_cons.mp hw'
      have haa : a = a' := by
        rcases Nat.lt_trichotomy a a' with hlt | heq | hgt
        · have h1 := h a
          rw [read_of_wfFrom (lo := a') (wfFrom_cons.mpr ⟨le_refl a', hc'.2⟩) hlt] at h1
          simp [Memory.read] at h1
          exact absurd h1 hc.2.1
        · exact heq
        · have h1 := h a'
          rw [read_of_wfFrom (lo := a) (wfFrom_cons.mpr ⟨le_refl a, hc.2⟩) hgt] at h1
          simp [Memory.read] at h1
          exact absurd h1.symm hc'.2.1
      subst haa
      have hd : d = d' := by simpa [Memory.read] using h a
      subst hd
      refine congrArg _ (ih hc.2.2 hc'.2.2 fun i => ?_)
      by_cases hi : a = i
      · subst hi
        rw [read_of_wfFrom hc.2.2 (by omega), read_of_wfFrom hc'.2.2 (by omega)]
      · simpa [Memory.read, hi] using h i

end Sys2Proof.Machine
end

