-- ==== Sys2Proof/Laws/DecodeOp.lean ====
section
/-! SUPPORT. What the decoder's scan does, said once: on input it accepts it consumes the data characters'
values one after another, and the value, the count and the overflow note that leaves are those of the
number the input denotes (40_arith_check.md R126, R127). -/

namespace Sys2Proof.Machine

/-! ### The characters the scan meets -/

@[simp] theorem scannedChars_zero (ibuf : Memory) : scannedChars ibuf 0 = [] := rfl

theorem scannedChars_succ_hyphen {ibuf : Memory} {n : Nat} (h : ibuf.read n = hyphen) :
    scannedChars ibuf (n + 1) = scannedChars ibuf n := by
  simp [scannedChars, inputChars, List.range_succ, h]

theorem scannedChars_succ {ibuf : Memory} {n : Nat} (h : ibuf.read n ≠ hyphen) :
    scannedChars ibuf (n + 1) = ibuf.read n :: scannedChars ibuf n := by
  simp [scannedChars, inputChars, List.range_succ, h]

/-! ### One character -/

theorem scanChar_hyphen (cs : Bool) (k : Nat) (a : Scan) : scanChar cs k hyphen a = .ok a := by
  simp [scanChar]

/-- A data character: what the scan does once no check symbol is awaited. -/
theorem scanChar_data {cs : Bool} {k : Nat} {ch : Byte} {a : Scan} (hch : ch ≠ hyphen)
    (hm : (cs && !a.ckseen) = false) :
    scanChar cs k ch a =
      match dataDec ch with
      | none => .error (.dataSymbol (position k) ch)
      | some d => .ok (a.consume d) := by
  rw [scanChar, if_neg hch, hm]
  rfl

/-- The check symbol: what the scan does with the first non-hyphen character when one is awaited. -/
theorem scanChar_check {cs : Bool} {k : Nat} {ch : Byte} {a : Scan} (hch : ch ≠ hyphen)
    (hm : (cs && !a.ckseen) = true) :
    scanChar cs k ch a =
      match chkDec ch with
      | none => .error (.checkSymbol (position k) ch)
      | some v => .ok (a.recordCheck v) := by
  rw [scanChar, if_neg hch, hm]
  rfl

@[simp] theorem Scan.consume_ckseen (a : Scan) (d : BitVec 5) : (a.consume d).ckseen = a.ckseen := rfl
@[simp] theorem Scan.consume_ck (a : Scan) (d : BitVec 5) : (a.consume d).ck = a.ck := rfl
@[simp] theorem Scan.consume_ndata (a : Scan) (d : BitVec 5) : (a.consume d).ndata = a.ndata + 1 := rfl
@[simp] theorem Scan.recordCheck_ckseen (a : Scan) (v : BitVec 6) :
    (a.recordCheck v).ckseen = true := rfl
@[simp] theorem Scan.recordCheck_ck (a : Scan) (v : BitVec 6) : (a.recordCheck v).ck = v := rfl

/-- The scan after the data values `ds` have been consumed, the first of the list first. -/
def Scan.consumeAll (a : Scan) (ds : List (BitVec 5)) : Scan := ds.foldl Scan.consume a

@[simp] theorem Scan.consumeAll_nil (a : Scan) : a.consumeAll [] = a := rfl
@[simp] theorem Scan.consumeAll_cons (a : Scan) (d : BitVec 5) (ds : List (BitVec 5)) :
    a.consumeAll (d :: ds) = (a.consume d).consumeAll ds := rfl

@[simp] theorem Scan.consumeAll_ck (a : Scan) (ds : List (BitVec 5)) :
    (a.consumeAll ds).ck = a.ck ∧ (a.consumeAll ds).ckseen = a.ckseen := by
  induction ds generalizing a with
  | nil => exact ⟨rfl, rfl⟩
  | cons d ds ih => exact ih (a.consume d)

/-! ### The whole scan -/

/-- With no check symbol awaited the scan succeeds exactly when every non-hyphen character is a data
character, and it has then consumed their values. -/
theorem scan_data {cs : Bool} {ibuf : Memory} {n : Nat} {a b : Scan} (hm : (cs && !a.ckseen) = false) :
    scan cs ibuf n a = .ok b ↔
      ∃ ds, decodesTo (scannedChars ibuf n) ds ∧ b = a.consumeAll ds := by
  induction n generalizing a with
  | zero =>
    constructor
    · intro h
      exact ⟨[], rfl, by simpa [scan] using h.symm⟩
    · rintro ⟨ds, hds, rfl⟩
      obtain rfl : ds = [] := by simpa [decodesTo] using hds.symm
      rfl
  | succ n ih =>
    by_cases hh : ibuf.read n = hyphen
    · rw [scan, hh, scanChar_hyphen, scannedChars_succ_hyphen hh]
      exact ih hm
    · rw [scan, scanChar_data hh hm, scannedChars_succ hh]
      cases hd : dataDec (ibuf.read n) with
      | none =>
        constructor
        · intro h
          cases h
        · rintro ⟨ds, hds, -⟩
          cases ds <;> simp [decodesTo, hd] at hds
      | some d =>
        simp only
        rw [ih (by simpa using hm)]
        constructor
        · rintro ⟨ds, hds, rfl⟩
          refine ⟨d :: ds, ?_, rfl⟩
          rw [decodesTo, List.map_cons, hd, hds]
          rfl
        · rintro ⟨ds, hds, rfl⟩
          cases ds with
          | nil => simp [decodesTo] at hds
          | cons e ds =>
            rw [decodesTo, List.map_cons, List.map_cons, hd, List.cons.injEq] at hds
            obtain ⟨he, hds⟩ := hds
            obtain rfl : d = e := by simpa using he
            exact ⟨ds, hds, rfl⟩

/-- With a check symbol awaited the scan succeeds on hyphens alone, or exactly when the first non-hyphen
character it meets is a check symbol and every other one a data character. -/
theorem scan_check {ibuf : Memory} {n : Nat} {a b : Scan} (ha : a.ckseen = false) :
    scan true ibuf n a = .ok b ↔
      (scannedChars ibuf n = [] ∧ b = a)
      ∨ ∃ c rest v ds, scannedChars ibuf n = c :: rest ∧ chkDec c = some v ∧ decodesTo rest ds
          ∧ b = (a.recordCheck v).consumeAll ds := by
  induction n with
  | zero => simp [scan, eq_comm]
  | succ n ih =>
    by_cases hh : ibuf.read n = hyphen
    · rw [scan, hh, scanChar_hyphen, scannedChars_succ_hyphen hh]
      exact ih
    · rw [scan, scanChar_check hh (by simp [ha]), scannedChars_succ hh]
      cases hd : chkDec (ibuf.read n) with
      | none =>
        constructor
        · intro h
          cases h
        · rintro (⟨h, -⟩ | ⟨c, rest, v, ds, h, hv, -⟩)
          · cases h
          · cases h
            rw [hd] at hv
            cases hv
      | some v =>
        simp only
        rw [scan_data (by simp)]
        constructor
        · rintro ⟨ds, hds, rfl⟩
          exact .inr ⟨_, _, v, ds, rfl, hd, hds, rfl⟩
        · rintro (⟨h, -⟩ | ⟨c, rest, v', ds, h, hv, hds, rfl⟩)
          · cases h
          · cases h
            rw [hd] at hv
            cases hv
            exact ⟨ds, hds, rfl⟩

/-! ### The number consumed -/

/-- The overflow test of one data symbol says whether the number it starts reaches 2^64, given whether the
symbols after it do (42_decode.md R183). -/
theorem overflows_iff (n : Nat) (d : BitVec 5) (m : Nat) :
    (overflows n d = true ∨ 2 ^ 64 ≤ 32 ^ (n + 1) * m) ↔ 2 ^ 64 ≤ 32 ^ n * (d.toNat + 32 * m) := by
  have hd : d.toNat < 32 := d.isLt
  have hz : d ≠ 0 ↔ d.toNat ≠ 0 := by
    rw [Ne, Ne, ← BitVec.toNat_inj]
    rfl
  rw [overflows, Bool.or_eq_true, Bool.and_eq_true, Bool.and_eq_true]
  simp only [decide_eq_true_eq, hz]
  rcases Nat.lt_or_ge n 13 with h | h
  · interval_cases n <;> norm_num <;> omega
  · have hp : (2 : Nat) ^ 64 ≤ 32 ^ n :=
      le_trans (by norm_num) (Nat.pow_le_pow_right (by norm_num) h)
    have hpow : (32 : Nat) ^ (n + 1) * m = 32 ^ n * (32 * m) := by ring
    rw [hpow]
    have key : ∀ x : Nat, 2 ^ 64 ≤ 32 ^ n * x ↔ x ≠ 0 := by
      intro x
      rcases Nat.eq_zero_or_pos x with rfl | hx
      · simp
      · exact ⟨fun _ => by omega, fun _ => le_trans hp (Nat.le_mul_of_pos_right _ hx)⟩
    rw [key, key]
    omega

/-- The multiplier before the `ndata`-th data symbol (40_arith_check.md R126). -/
def Scan.mulOk (a : Scan) : Prop := a.mul = BitVec.ofNat 64 (32 ^ a.ndata)

theorem scanStart_mulOk : scanStart.mulOk := rfl

theorem Scan.recordCheck_mulOk {a : Scan} (h : a.mulOk) (v : BitVec 6) : (a.recordCheck v).mulOk := h

/-- What consuming the values `ds` adds: their number at the current place, their count, and the note
whether that number reaches 2^64 (40_arith_check.md R127, 42_decode.md R183). -/
theorem Scan.consumeAll_spec {a : Scan} (h : a.mulOk) (ds : List (BitVec 5)) :
    (a.consumeAll ds).acc = a.acc + BitVec.ofNat 64 (32 ^ a.ndata * number ds)
    ∧ (a.consumeAll ds).ndata = a.ndata + ds.length
    ∧ ((a.consumeAll ds).ovf = true ↔ a.ovf = true ∨ 2 ^ 64 ≤ 32 ^ a.ndata * number ds) := by
  induction ds generalizing a with
  | nil => simp [number]
  | cons d ds ih =>
    have hm : (a.consume d).mulOk := by
      show a.mul * 32 = BitVec.ofNat 64 (32 ^ (a.ndata + 1))
      rw [h, Nat.pow_succ, BitVec.ofNat_mul]
      rfl
    obtain ⟨h1, h2, h3⟩ := ih hm
    refine ⟨?_, ?_, ?_⟩
    · rw [Scan.consumeAll_cons, h1]
      show a.acc + d.setWidth 64 * a.mul + _ = _
      have hd : d.setWidth 64 = BitVec.ofNat 64 d.toNat := by simp
      rw [h, hd, BitVec.add_assoc, ← BitVec.ofNat_mul, ← BitVec.ofNat_add, Scan.consume_ndata, number]
      congr 2
      ring
    · rw [Scan.consumeAll_cons, h2, Scan.consume_ndata, List.length_cons]
      omega
    · rw [Scan.consumeAll_cons, h3]
      show (a.ovf || overflows a.ndata d) = true ∨ _ ↔ _
      rw [Bool.or_eq_true, or_assoc, Scan.consume_ndata, overflows_iff, number]

/-- From the start of the scan: the value modulo 2^64, the count and the note (42_decode.md R190). -/
theorem consumeAll_start (ds : List (BitVec 5)) :
    (scanStart.consumeAll ds).acc = BitVec.ofNat 64 (number ds)
    ∧ (scanStart.consumeAll ds).ndata = ds.length
    ∧ (scanStart.consumeAll ds).ovf = decide (2 ^ 64 ≤ number ds) := by
  obtain ⟨h1, h2, h3⟩ := Scan.consumeAll_spec scanStart_mulOk ds
  refine ⟨by simpa [scanStart] using h1, by simpa [scanStart] using h2, ?_⟩
  rw [Bool.eq_iff_iff, decide_eq_true_eq, h3]
  simp [scanStart]

end Sys2Proof.Machine
end

