-- ==== Sys2Proof/Laws/Encode.lean ====
section
/-! SUPPORT. What the encoder's loop does, said once: where it stops, what it has written, and what it has
left alone; and from that, that ENCODE_CORE lays down the canonical string. -/

namespace Sys2Proof.Machine

/-- The remaining value, as a number. -/
theorem shiftGroup_toNat (w : Word) : (shiftGroup w).toNat = w.toNat / 32 := by
  simp [shiftGroup, Nat.shiftRight_eq_div_pow]

/-- The low group, as a number. -/
theorem lowGroup_eq (w : Word) : lowGroup w = w.toNat % 32 := by
  have : w.toNat &&& 31 = w.toNat % 2 ^ 5 := Nat.and_two_pow_sub_one_eq_mod _ 5
  simpa [lowGroup] using this

theorem group_zero (w : Word) : group w 0 = lowGroup w := by simp [group, lowGroup_eq]

theorem group_shiftGroup (w : Word) (j : Nat) : group (shiftGroup w) j = group w (j + 1) := by
  simp only [group, shiftGroup_toNat, Nat.div_div_eq_div_mul, Nat.pow_succ']

theorem shiftGroup_eq_zero {w : Word} : shiftGroup w = 0 ↔ w.toNat < 32 := by
  rw [← BitVec.toNat_inj, shiftGroup_toNat]
  simp [Nat.div_eq_zero_iff]

theorem groupCount_small {w : Word} (h : w.toNat < 32) : groupCount w = 1 := by
  by_cases h0 : w = 0
  · simp [groupCount, h0]
  · have hw : w.toNat ≠ 0 := fun hc => h0 (BitVec.eq_of_toNat_eq (by simpa using hc))
    have : Nat.log2 w.toNat < 5 := (Nat.log2_lt hw).mpr (by simpa using h)
    simp only [groupCount, bitLength, if_neg h0]
    omega

theorem groupCount_large {w : Word} (h : 32 ≤ w.toNat) :
    groupCount w = groupCount (shiftGroup w) + 1 := by
  have hw : w ≠ 0 := by rintro rfl; simp at h
  have hs : shiftGroup w ≠ 0 := fun hc => by have := shiftGroup_eq_zero.mp hc; omega
  have hlog : Nat.log2 w.toNat = Nat.log2 (shiftGroup w).toNat + 5 := by
    have hd : (shiftGroup w).toNat ≠ 0 := by rw [shiftGroup_toNat]; omega
    have h1 := Nat.log2_self_le hd
    have h2 := Nat.lt_log2_self (n := (shiftGroup w).toNat)
    rw [shiftGroup_toNat] at h1 h2 ⊢
    rw [Nat.log2_eq_iff (by omega)]
    constructor
    · rw [Nat.pow_add]; omega
    · have : 2 ^ (Nat.log2 (w.toNat / 32) + 5 + 1) = 32 * 2 ^ (Nat.log2 (w.toNat / 32) + 1) := by ring
      rw [this]; omega
  simp only [groupCount, bitLength, if_neg hw, if_neg hs, hlog]
  omega

theorem groupCount_pos (w : Word) : 1 ≤ groupCount w := by
  rcases Nat.lt_or_ge w.toNat 32 with h | h
  · rw [groupCount_small h]
  · rw [groupCount_large h]; omega

theorem groupCount_le {n : Nat} {w : Word} (hn : 1 ≤ n) (h : w.toNat < 32 ^ n) : groupCount w ≤ n := by
  induction n generalizing w with
  | zero => omega
  | succ n ih =>
    rcases Nat.lt_or_ge w.toNat 32 with hs | hl
    · rw [groupCount_small hs]; omega
    · rw [groupCount_large hl]
      have hn' : 1 ≤ n := by
        rcases Nat.eq_zero_or_pos n with rfl | hp
        · simp at h; omega
        · exact hp
      have := ih hn' (w := shiftGroup w) (by
        rw [shiftGroup_toNat]
        rw [Nat.pow_succ] at h
        omega)
      omega

/-- What the loop does: it stops `groupCount w` indices lower, it has written there the symbol of each
group, it has left every other index alone, and it has kept the canonical form. -/
theorem encodeLoop_spec {n i : Nat} {w : Word} {ob : Memory} (hn : 1 ≤ n) (hw : w.toNat < 32 ^ n)
    (hi : n ≤ i) (hob : ob.wf = true) :
    (encodeLoop n w ob i).2 = i - groupCount w
    ∧ (∀ j, j < groupCount w → (encodeLoop n w ob i).1.read (i - 1 - j) = encSymbol (group w j))
    ∧ (∀ k, i ≤ k ∨ k < i - groupCount w → (encodeLoop n w ob i).1.read k = ob.read k)
    ∧ (encodeLoop n w ob i).1.wf = true := by
  induction n generalizing i w ob with
  | zero => omega
  | succ n ih =>
    by_cases hz : shiftGroup w = 0
    · have hc := groupCount_small (shiftGroup_eq_zero.mp hz)
      simp only [encodeLoop, if_pos hz, hc]
      refine ⟨trivial, fun j hj => ?_, fun k hk => ?_, Memory.write_wf hob⟩
      · obtain rfl : j = 0 := by omega
        rw [Nat.sub_zero, Memory.read_write_same hob, group_zero]
      · exact Memory.read_write_ne (by omega)
    · have hl : 32 ≤ w.toNat := by
        rcases Nat.lt_or_ge w.toNat 32 with h | h
        · exact absurd (shiftGroup_eq_zero.mpr h) hz
        · exact h
      have hc := groupCount_large hl
      have hn' : 1 ≤ n := by
        rcases Nat.eq_zero_or_pos n with rfl | hp
        · simp at hw; omega
        · exact hp
      have hw' : (shiftGroup w).toNat < 32 ^ n := by
        rw [shiftGroup_toNat]; rw [Nat.pow_succ] at hw; omega
      have hle := groupCount_le hn' hw'
      obtain ⟨h1, h2, h3, h4⟩ := ih (i := i - 1) (ob := ob.write (i - 1) (encSymbol (lowGroup w))) hn' hw'
        (by omega) (Memory.write_wf hob)
      simp only [encodeLoop, if_neg hz]
      refine ⟨by rw [h1]; omega, fun j hj => ?_, fun k hk => ?_, h4⟩
      · cases j with
        | zero =>
          rw [Nat.sub_zero, h3 (i - 1) (by omega), Memory.read_write_same hob, group_zero]
        | succ j =>
          rw [← group_shiftGroup, ← h2 j (by omega)]
          congr 1
          omega
      · rw [h3 k (by omega)]
        exact Memory.read_write_ne (by omega)

theorem word_lt (v : Word) : v.toNat < 32 ^ 13 := by
  have := v.isLt
  have h : (2 : Nat) ^ 64 ≤ 32 ^ 13 := by norm_num
  omega

theorem groupCount_le_13 (v : Word) : groupCount v ≤ 13 := groupCount_le (by omega) (word_lt v)

/-- The length of the canonical string: `n + cs` (41_encode.md R151). -/
theorem encodedString_length (v : Word) (cs : Bool) :
    (encodedString v cs).length = groupCount v + cs.toNat := by
  cases cs <;> simp [encodedString, dataString]

theorem encodedString_data {v : Word} {cs : Bool} {k : Nat} (hk : k < groupCount v)
    (h : k < (encodedString v cs).length) :
    (encodedString v cs)[k] = encSymbol (group v (groupCount v - 1 - k)) := by
  have hd : k < (dataString v).length := by simpa [dataString] using hk
  simp only [encodedString]
  rw [List.getElem_append_left hd]
  simp [dataString]

theorem encodedString_check {v : Word} (h : groupCount v < (encodedString v true).length) :
    (encodedString v true)[groupCount v] = encSymbol (v.toNat % 37) := by
  simp only [encodedString]
  rw [List.getElem_append_right (by simp [dataString])]
  simp [dataString]

/-- ENCODE_CORE lays down the canonical string, right-justified (41_encode.md R143 to R145, R151). -/
theorem encodeCore_spec (v : Word) (cs : Bool) :
    (encodeCore v cs).2 = 14 - (encodedString v cs).length
    ∧ holdsString (encodeCore v cs).1 (encodedString v cs) := by
  have hpos := groupCount_pos v
  have hle := groupCount_le_13 v
  have hlen := encodedString_length v cs
  cases cs with
  | false =>
    obtain ⟨h1, h2, h3, h4⟩ := encodeLoop_spec (i := 14) (ob := []) (by omega) (word_lt v) (by omega) rfl
    simp only [Bool.toNat_false, Nat.add_zero] at hlen
    have hcore : encodeCore v false = encodeLoop 13 v [] 14 := rfl
    rw [hcore, hlen]
    refine ⟨h1, by omega, fun k hk => ?_, fun j hj => ?_, h4, ?_⟩
    · rw [encodedString_data (by omega), ← h2 _ (by omega)]
      congr 1
      omega
    · rw [h3 j (by omega)]; rfl
    · exact Memory.below_of_read h4 fun k hk => by rw [h3 k (by omega)]; rfl
  | true =>
    have hob : (Memory.write [] 13 (encSymbol (checkValue v))).wf = true := Memory.write_wf rfl
    obtain ⟨h1, h2, h3, h4⟩ := encodeLoop_spec (i := 13) (by omega) (word_lt v) (by omega) hob
    simp only [Bool.toNat_true] at hlen
    have hcore : encodeCore v true
        = encodeLoop 13 v (Memory.write [] 13 (encSymbol (checkValue v))) 13 := rfl
    rw [hcore, hlen]
    refine ⟨by omega, by omega, fun k hk => ?_, fun j hj => ?_, h4, ?_⟩
    · rcases Nat.lt_or_ge k (groupCount v) with hd | hd
      · rw [encodedString_data hd, ← h2 _ (by omega)]
        congr 1
        omega
      · obtain rfl : k = groupCount v := by omega
        rw [encodedString_check]
        have : 14 - (encodedString v true).length + groupCount v = 13 := by omega
        rw [this, h3 13 (by omega), Memory.read_write_same (lo := 0) rfl, checkValue]
    · rw [h3 j (by omega), Memory.read_write_ne (by omega)]; rfl
    · refine Memory.below_of_read h4 fun k hk => ?_
      rw [h3 k (by omega), Memory.read_write_ne (by omega)]; rfl

end Sys2Proof.Machine
end

