-- ==== Sys2Proof/Laws/State.lean ====
section
/-! SUPPORT. One lemma per field of State per update, true by rfl, so that no later proof unfolds a record
update. -/

namespace Sys2Proof.Machine

/-! ### A completion -/

@[simp] theorem State.complete_cmd (s : State) (r : Completion) : (s.complete r).cmd = s.cmd := rfl
@[simp] theorem State.complete_status (s : State) (r : Completion) : (s.complete r).status = r.status := rfl
@[simp] theorem State.complete_vin (s : State) (r : Completion) : (s.complete r).vin = s.vin := rfl
@[simp] theorem State.complete_dlen (s : State) (r : Completion) : (s.complete r).dlen = s.dlen := rfl
@[simp] theorem State.complete_ilen (s : State) (r : Completion) : (s.complete r).ilen = s.ilen := rfl
@[simp] theorem State.complete_vout (s : State) (r : Completion) : (s.complete r).vout = r.vout := rfl
@[simp] theorem State.complete_ostart (s : State) (r : Completion) : (s.complete r).ostart = r.ostart := rfl
@[simp] theorem State.complete_olen (s : State) (r : Completion) : (s.complete r).olen = r.olen := rfl
@[simp] theorem State.complete_epos (s : State) (r : Completion) : (s.complete r).epos = r.epos := rfl
@[simp] theorem State.complete_echr (s : State) (r : Completion) : (s.complete r).echr = r.echr := rfl
@[simp] theorem State.complete_ckcalc (s : State) (r : Completion) : (s.complete r).ckcalc = r.ckcalc := rfl
@[simp] theorem State.complete_cksym (s : State) (r : Completion) : (s.complete r).cksym = r.cksym := rfl
@[simp] theorem State.complete_ecause (s : State) (r : Completion) : (s.complete r).ecause = r.ecause := rfl
@[simp] theorem State.complete_ibuf (s : State) (r : Completion) : (s.complete r).ibuf = s.ibuf := rfl
@[simp] theorem State.complete_obuf (s : State) (r : Completion) : (s.complete r).obuf = r.obuf := rfl
@[simp] theorem State.complete_cfg (s : State) (r : Completion) : (s.complete r).cfg = s.cfg := rfl
@[simp] theorem State.complete_script (s : State) (r : Completion) : (s.complete r).script = s.script := rfl
@[simp] theorem State.complete_seen (s : State) (r : Completion) : (s.complete r).seen = s.seen := rfl
@[simp] theorem State.complete_turns (s : State) (r : Completion) : (s.complete r).turns = s.turns := rfl
@[simp] theorem State.complete_draws (s : State) (r : Completion) : (s.complete r).draws = s.draws := rfl

/-! ### An accepted CMD write -/

@[simp] theorem State.startCommand_cmd (s : State) (c : Byte) : (s.startCommand c).cmd = c := rfl
@[simp] theorem State.startCommand_status (s : State) (c : Byte) : (s.startCommand c).status = busyStatus := rfl
@[simp] theorem State.startCommand_vin (s : State) (c : Byte) : (s.startCommand c).vin = s.vin := rfl
@[simp] theorem State.startCommand_dlen (s : State) (c : Byte) : (s.startCommand c).dlen = s.dlen := rfl
@[simp] theorem State.startCommand_ilen (s : State) (c : Byte) : (s.startCommand c).ilen = s.ilen := rfl
@[simp] theorem State.startCommand_vout (s : State) (c : Byte) : (s.startCommand c).vout = s.vout := rfl
@[simp] theorem State.startCommand_ostart (s : State) (c : Byte) : (s.startCommand c).ostart = s.ostart := rfl
@[simp] theorem State.startCommand_olen (s : State) (c : Byte) : (s.startCommand c).olen = s.olen := rfl
@[simp] theorem State.startCommand_epos (s : State) (c : Byte) : (s.startCommand c).epos = s.epos := rfl
@[simp] theorem State.startCommand_echr (s : State) (c : Byte) : (s.startCommand c).echr = s.echr := rfl
@[simp] theorem State.startCommand_ckcalc (s : State) (c : Byte) : (s.startCommand c).ckcalc = s.ckcalc := rfl
@[simp] theorem State.startCommand_cksym (s : State) (c : Byte) : (s.startCommand c).cksym = s.cksym := rfl
@[simp] theorem State.startCommand_ecause (s : State) (c : Byte) : (s.startCommand c).ecause = s.ecause := rfl
@[simp] theorem State.startCommand_ibuf (s : State) (c : Byte) : (s.startCommand c).ibuf = s.ibuf := rfl
@[simp] theorem State.startCommand_obuf (s : State) (c : Byte) : (s.startCommand c).obuf = s.obuf := rfl
@[simp] theorem State.startCommand_cfg (s : State) (c : Byte) : (s.startCommand c).cfg = s.cfg := rfl
@[simp] theorem State.startCommand_script (s : State) (c : Byte) : (s.startCommand c).script = s.script := rfl
@[simp] theorem State.startCommand_seen (s : State) (c : Byte) : (s.startCommand c).seen = s.seen := rfl
@[simp] theorem State.startCommand_turns (s : State) (c : Byte) : (s.startCommand c).turns = s.turns := rfl
@[simp] theorem State.startCommand_draws (s : State) (c : Byte) : (s.startCommand c).draws = s.draws := rfl

/-! ### The reset input -/

@[simp] theorem State.blockReset_cmd (s : State) : (s.blockReset).cmd = 0 := rfl
@[simp] theorem State.blockReset_status (s : State) : (s.blockReset).status = 0 := rfl
@[simp] theorem State.blockReset_vin (s : State) : (s.blockReset).vin = 0 := rfl
@[simp] theorem State.blockReset_dlen (s : State) : (s.blockReset).dlen = 0 := rfl
@[simp] theorem State.blockReset_ilen (s : State) : (s.blockReset).ilen = 0 := rfl
@[simp] theorem State.blockReset_vout (s : State) : (s.blockReset).vout = 0 := rfl
@[simp] theorem State.blockReset_ostart (s : State) : (s.blockReset).ostart = 0 := rfl
@[simp] theorem State.blockReset_olen (s : State) : (s.blockReset).olen = 0 := rfl
@[simp] theorem State.blockReset_epos (s : State) : (s.blockReset).epos = 0 := rfl
@[simp] theorem State.blockReset_echr (s : State) : (s.blockReset).echr = 0 := rfl
@[simp] theorem State.blockReset_ckcalc (s : State) : (s.blockReset).ckcalc = 0 := rfl
@[simp] theorem State.blockReset_cksym (s : State) : (s.blockReset).cksym = 0 := rfl
@[simp] theorem State.blockReset_ecause (s : State) : (s.blockReset).ecause = 0 := rfl
@[simp] theorem State.blockReset_ibuf (s : State) : (s.blockReset).ibuf = [] := rfl
@[simp] theorem State.blockReset_obuf (s : State) : (s.blockReset).obuf = [] := rfl
@[simp] theorem State.blockReset_cfg (s : State) : (s.blockReset).cfg = s.cfg := rfl
@[simp] theorem State.blockReset_script (s : State) : (s.blockReset).script = s.script := rfl
@[simp] theorem State.blockReset_seen (s : State) : (s.blockReset).seen = s.seen := rfl
@[simp] theorem State.blockReset_turns (s : State) : (s.blockReset).turns = s.turns := rfl
@[simp] theorem State.blockReset_draws (s : State) : (s.blockReset).draws = s.draws := rfl

/-! ### A read by HOST -/

@[simp] theorem State.hostRead_cmd (s : State) (a : HostAddr) : (s.hostRead a).cmd = s.cmd := rfl
@[simp] theorem State.hostRead_status (s : State) (a : HostAddr) : (s.hostRead a).status = s.status := rfl
@[simp] theorem State.hostRead_vin (s : State) (a : HostAddr) : (s.hostRead a).vin = s.vin := rfl
@[simp] theorem State.hostRead_dlen (s : State) (a : HostAddr) : (s.hostRead a).dlen = s.dlen := rfl
@[simp] theorem State.hostRead_ilen (s : State) (a : HostAddr) : (s.hostRead a).ilen = s.ilen := rfl
@[simp] theorem State.hostRead_vout (s : State) (a : HostAddr) : (s.hostRead a).vout = s.vout := rfl
@[simp] theorem State.hostRead_ostart (s : State) (a : HostAddr) : (s.hostRead a).ostart = s.ostart := rfl
@[simp] theorem State.hostRead_olen (s : State) (a : HostAddr) : (s.hostRead a).olen = s.olen := rfl
@[simp] theorem State.hostRead_epos (s : State) (a : HostAddr) : (s.hostRead a).epos = s.epos := rfl
@[simp] theorem State.hostRead_echr (s : State) (a : HostAddr) : (s.hostRead a).echr = s.echr := rfl
@[simp] theorem State.hostRead_ckcalc (s : State) (a : HostAddr) : (s.hostRead a).ckcalc = s.ckcalc := rfl
@[simp] theorem State.hostRead_cksym (s : State) (a : HostAddr) : (s.hostRead a).cksym = s.cksym := rfl
@[simp] theorem State.hostRead_ecause (s : State) (a : HostAddr) : (s.hostRead a).ecause = s.ecause := rfl
@[simp] theorem State.hostRead_ibuf (s : State) (a : HostAddr) : (s.hostRead a).ibuf = s.ibuf := rfl
@[simp] theorem State.hostRead_obuf (s : State) (a : HostAddr) : (s.hostRead a).obuf = s.obuf := rfl
@[simp] theorem State.hostRead_cfg (s : State) (a : HostAddr) : (s.hostRead a).cfg = s.cfg := rfl
@[simp] theorem State.hostRead_script (s : State) (a : HostAddr) : (s.hostRead a).script = s.script := rfl
@[simp] theorem State.hostRead_seen (s : State) (a : HostAddr) : (s.hostRead a).seen = (a, readValue s a) :: s.seen := rfl
@[simp] theorem State.hostRead_turns (s : State) (a : HostAddr) : (s.hostRead a).turns = s.turns := rfl
@[simp] theorem State.hostRead_draws (s : State) (a : HostAddr) : (s.hostRead a).draws = if readIsUnspecified s a then s.draws + 1 else s.draws := rfl

/-! ### HOST's program -/

@[simp] theorem State.withScript_cmd (s : State) (p : List HostStep) : (s.withScript p).cmd = s.cmd := rfl
@[simp] theorem State.withScript_status (s : State) (p : List HostStep) : (s.withScript p).status = s.status := rfl
@[simp] theorem State.withScript_vin (s : State) (p : List HostStep) : (s.withScript p).vin = s.vin := rfl
@[simp] theorem State.withScript_dlen (s : State) (p : List HostStep) : (s.withScript p).dlen = s.dlen := rfl
@[simp] theorem State.withScript_ilen (s : State) (p : List HostStep) : (s.withScript p).ilen = s.ilen := rfl
@[simp] theorem State.withScript_vout (s : State) (p : List HostStep) : (s.withScript p).vout = s.vout := rfl
@[simp] theorem State.withScript_ostart (s : State) (p : List HostStep) : (s.withScript p).ostart = s.ostart := rfl
@[simp] theorem State.withScript_olen (s : State) (p : List HostStep) : (s.withScript p).olen = s.olen := rfl
@[simp] theorem State.withScript_epos (s : State) (p : List HostStep) : (s.withScript p).epos = s.epos := rfl
@[simp] theorem State.withScript_echr (s : State) (p : List HostStep) : (s.withScript p).echr = s.echr := rfl
@[simp] theorem State.withScript_ckcalc (s : State) (p : List HostStep) : (s.withScript p).ckcalc = s.ckcalc := rfl
@[simp] theorem State.withScript_cksym (s : State) (p : List HostStep) : (s.withScript p).cksym = s.cksym := rfl
@[simp] theorem State.withScript_ecause (s : State) (p : List HostStep) : (s.withScript p).ecause = s.ecause := rfl
@[simp] theorem State.withScript_ibuf (s : State) (p : List HostStep) : (s.withScript p).ibuf = s.ibuf := rfl
@[simp] theorem State.withScript_obuf (s : State) (p : List HostStep) : (s.withScript p).obuf = s.obuf := rfl
@[simp] theorem State.withScript_cfg (s : State) (p : List HostStep) : (s.withScript p).cfg = s.cfg := rfl
@[simp] theorem State.withScript_script (s : State) (p : List HostStep) : (s.withScript p).script = p := rfl
@[simp] theorem State.withScript_seen (s : State) (p : List HostStep) : (s.withScript p).seen = s.seen := rfl
@[simp] theorem State.withScript_turns (s : State) (p : List HostStep) : (s.withScript p).turns = s.turns := rfl
@[simp] theorem State.withScript_draws (s : State) (p : List HostStep) : (s.withScript p).draws = s.draws := rfl

/-! ### A turn used up -/

@[simp] theorem State.popTurn_cmd (s : State) : (s.popTurn).cmd = s.cmd := rfl
@[simp] theorem State.popTurn_status (s : State) : (s.popTurn).status = s.status := rfl
@[simp] theorem State.popTurn_vin (s : State) : (s.popTurn).vin = s.vin := rfl
@[simp] theorem State.popTurn_dlen (s : State) : (s.popTurn).dlen = s.dlen := rfl
@[simp] theorem State.popTurn_ilen (s : State) : (s.popTurn).ilen = s.ilen := rfl
@[simp] theorem State.popTurn_vout (s : State) : (s.popTurn).vout = s.vout := rfl
@[simp] theorem State.popTurn_ostart (s : State) : (s.popTurn).ostart = s.ostart := rfl
@[simp] theorem State.popTurn_olen (s : State) : (s.popTurn).olen = s.olen := rfl
@[simp] theorem State.popTurn_epos (s : State) : (s.popTurn).epos = s.epos := rfl
@[simp] theorem State.popTurn_echr (s : State) : (s.popTurn).echr = s.echr := rfl
@[simp] theorem State.popTurn_ckcalc (s : State) : (s.popTurn).ckcalc = s.ckcalc := rfl
@[simp] theorem State.popTurn_cksym (s : State) : (s.popTurn).cksym = s.cksym := rfl
@[simp] theorem State.popTurn_ecause (s : State) : (s.popTurn).ecause = s.ecause := rfl
@[simp] theorem State.popTurn_ibuf (s : State) : (s.popTurn).ibuf = s.ibuf := rfl
@[simp] theorem State.popTurn_obuf (s : State) : (s.popTurn).obuf = s.obuf := rfl
@[simp] theorem State.popTurn_cfg (s : State) : (s.popTurn).cfg = s.cfg := rfl
@[simp] theorem State.popTurn_script (s : State) : (s.popTurn).script = s.script := rfl
@[simp] theorem State.popTurn_seen (s : State) : (s.popTurn).seen = s.seen := rfl
@[simp] theorem State.popTurn_turns (s : State) : (s.popTurn).turns = s.turns.tail := rfl
@[simp] theorem State.popTurn_draws (s : State) : (s.popTurn).draws = s.draws := rfl

/-! ### A command placed for the next step -/

@[simp] theorem State.withFetchWord_cmd (s : State) (n w : Nat) : (s.withFetchWord n w).cmd = BitVec.ofNat 8 (w % 2 ^ n) := rfl
@[simp] theorem State.withFetchWord_status (s : State) (n w : Nat) : (s.withFetchWord n w).status = busyStatus := rfl
@[simp] theorem State.withFetchWord_vin (s : State) (n w : Nat) : (s.withFetchWord n w).vin = s.vin := rfl
@[simp] theorem State.withFetchWord_dlen (s : State) (n w : Nat) : (s.withFetchWord n w).dlen = s.dlen := rfl
@[simp] theorem State.withFetchWord_ilen (s : State) (n w : Nat) : (s.withFetchWord n w).ilen = s.ilen := rfl
@[simp] theorem State.withFetchWord_vout (s : State) (n w : Nat) : (s.withFetchWord n w).vout = s.vout := rfl
@[simp] theorem State.withFetchWord_ostart (s : State) (n w : Nat) : (s.withFetchWord n w).ostart = s.ostart := rfl
@[simp] theorem State.withFetchWord_olen (s : State) (n w : Nat) : (s.withFetchWord n w).olen = s.olen := rfl
@[simp] theorem State.withFetchWord_epos (s : State) (n w : Nat) : (s.withFetchWord n w).epos = s.epos := rfl
@[simp] theorem State.withFetchWord_echr (s : State) (n w : Nat) : (s.withFetchWord n w).echr = s.echr := rfl
@[simp] theorem State.withFetchWord_ckcalc (s : State) (n w : Nat) : (s.withFetchWord n w).ckcalc = s.ckcalc := rfl
@[simp] theorem State.withFetchWord_cksym (s : State) (n w : Nat) : (s.withFetchWord n w).cksym = s.cksym := rfl
@[simp] theorem State.withFetchWord_ecause (s : State) (n w : Nat) : (s.withFetchWord n w).ecause = s.ecause := rfl
@[simp] theorem State.withFetchWord_ibuf (s : State) (n w : Nat) : (s.withFetchWord n w).ibuf = s.ibuf := rfl
@[simp] theorem State.withFetchWord_obuf (s : State) (n w : Nat) : (s.withFetchWord n w).obuf = s.obuf := rfl
@[simp] theorem State.withFetchWord_cfg (s : State) (n w : Nat) : (s.withFetchWord n w).cfg = s.cfg := rfl
@[simp] theorem State.withFetchWord_script (s : State) (n w : Nat) : (s.withFetchWord n w).script = s.script := rfl
@[simp] theorem State.withFetchWord_seen (s : State) (n w : Nat) : (s.withFetchWord n w).seen = s.seen := rfl
@[simp] theorem State.withFetchWord_turns (s : State) (n w : Nat) : (s.withFetchWord n w).turns = .engine :: s.turns := rfl
@[simp] theorem State.withFetchWord_draws (s : State) (n w : Nat) : (s.withFetchWord n w).draws = s.draws := rfl

/-! ### The result registers as a record -/

@[simp] theorem State.results_status (s : State) : s.results.status = s.status := rfl
@[simp] theorem State.results_vout (s : State) : s.results.vout = s.vout := rfl
@[simp] theorem State.results_ostart (s : State) : s.results.ostart = s.ostart := rfl
@[simp] theorem State.results_olen (s : State) : s.results.olen = s.olen := rfl
@[simp] theorem State.results_epos (s : State) : s.results.epos = s.epos := rfl
@[simp] theorem State.results_echr (s : State) : s.results.echr = s.echr := rfl
@[simp] theorem State.results_ckcalc (s : State) : s.results.ckcalc = s.ckcalc := rfl
@[simp] theorem State.results_cksym (s : State) : s.results.cksym = s.cksym := rfl
@[simp] theorem State.results_ecause (s : State) : s.results.ecause = s.ecause := rfl
@[simp] theorem State.results_obuf (s : State) : s.results.obuf = s.obuf := rfl

/-- A completion's record is read back whole. -/
@[simp] theorem State.results_complete (s : State) (r : Completion) : (s.complete r).results = r := rfl

/-- Writing the results that stand changes nothing. -/
@[simp] theorem State.complete_results (s : State) : s.complete s.results = s := rfl

/-- The later of two completions is the one that counts. -/
@[simp] theorem State.complete_complete (s : State) (r r' : Completion) :
    (s.complete r).complete r' = s.complete r' := rfl

@[simp] theorem State.results_withScript (s : State) (p : List HostStep) :
    (s.withScript p).results = s.results := rfl
@[simp] theorem State.results_popTurn (s : State) : s.popTurn.results = s.results := rfl
@[simp] theorem State.results_hostRead (s : State) (a : HostAddr) :
    (s.hostRead a).results = s.results := rfl
@[simp] theorem State.busy_popTurn (s : State) : s.popTurn.busy = s.busy := rfl
@[simp] theorem State.busy_withScript (s : State) (p : List HostStep) :
    (s.withScript p).busy = s.busy := rfl
@[simp] theorem State.busy_hostRead (s : State) (a : HostAddr) : (s.hostRead a).busy = s.busy := rfl
@[simp] theorem State.busy_startCommand (s : State) (c : Byte) : (s.startCommand c).busy = true := by
  show statusBusy busyStatus = true; decide
@[simp] theorem State.busy_blockReset (s : State) : s.blockReset.busy = false := by
  show statusBusy 0 = false; decide

end Sys2Proof.Machine
end

