-- ==== Sys2Proof/Laws/Exec.lean ====
section
/-! SUPPORT. Every meaning is one completion of a record computed from the operands: said once, so that
frames and invariants never unfold a meaning. And every record, field by field. -/

namespace Sys2Proof.Machine

/-- The record an operation completes with: a function of the operands it reads (41_encode.md R149,
42_decode.md R193). -/
def recordOf (i : Instr) (s : State) : Completion :=
  match i with
  | .enc cs sg => encRecord cs sg s.vin
  | .encb cs sg => encbRecord cs sg s.vin s.dlen
  | .dec cs => decRecord s.cfg cs s.ilen s.ibuf
  | .illegalReservedOp _ => raise .reservedOp
  | .illegalDecSg _ => raise .reservedBits
  | .illegalReservedB7 _ => raise .reservedBits
  | .illegalReservedB6 _ => raise .reservedBits
  | .illegalReservedB5 _ => raise .reservedBits
  | .illegalReservedB4 _ => raise .reservedBits

/-- Everything an operation can do: it answers a next state, the completion of its record. -/
theorem exec_eq (i : Instr) (s : State) : exec i s = .next (s.complete (recordOf i s)) := by
  cases i <;> rfl

theorem exec_next_iff {i : Instr} {s t : State} :
    exec i s = .next t ↔ t = s.complete (recordOf i s) := by
  rw [exec_eq]
  constructor
  · intro h
    injection h with h
    exact h.symm
  · rintro rfl
    rfl

/-- An operation's record does not depend on the result registers. -/
@[simp] theorem recordOf_complete (i : Instr) (s : State) (r : Completion) :
    recordOf i (s.complete r) = recordOf i s := by
  cases i <;> rfl

/-! ### The records, field by field (60_exceptions.md R211, R213) -/

theorem symbolOutOfRange_status : completedStatus false (errCode .symbolOutOfRange) false = 0x1A := by
  decide
theorem checksumMismatch_status : completedStatus false (errCode .checksumMismatch) false = 0x22 := by
  decide
theorem raise_negValue : raise .negValue = failedRecord 0x0A 1 0 0 0 0 := by decide
theorem raise_emptyInput : raise .emptyInput = failedRecord 0x0A 2 0 0 0 0 := by decide
theorem raise_noData : raise .noData = failedRecord 0x0A 3 0 0 0 0 := by decide
theorem raise_noCheckSymbol : raise .noCheckSymbol = failedRecord 0x0A 4 0 0 0 0 := by decide
theorem raise_destTooSmall : raise .destTooSmall = failedRecord 0x12 5 0 0 0 0 := by decide
theorem raise_dataSymbol (pos chr : Byte) :
    raise (.dataSymbol pos chr) = failedRecord 0x1A 6 pos chr 0 0 := by
  rw [failedRecord, ← symbolOutOfRange_status]
  rfl
theorem raise_checkSymbol (pos chr : Byte) :
    raise (.checkSymbol pos chr) = failedRecord 0x1A 7 pos chr 0 0 := by
  rw [failedRecord, ← symbolOutOfRange_status]
  rfl
theorem raise_checkMismatch (computed symbol : Byte) :
    raise (.checkMismatch computed symbol) = failedRecord 0x22 8 0 0 computed symbol := by
  rw [failedRecord, ← checksumMismatch_status]
  rfl
theorem raise_reservedOp : raise .reservedOp = failedRecord 0x2A 9 0 0 0 0 := by decide
theorem raise_reservedBits : raise .reservedBits = failedRecord 0x2A 10 0 0 0 0 := by decide
theorem raise_badIlen : raise .badIlen = failedRecord 0x2A 11 0 0 0 0 := by decide

theorem succeedEncode_eq (ob : Memory) (n st : Nat) : succeedEncode ob n st = encodedRecord ob n st := rfl

theorem succeedDecode_eq (v : Word) (ovf : Bool) (c : Byte) :
    succeedDecode v ovf c c = decodedRecord v ovf c := by
  cases ovf <;> rfl

end Sys2Proof.Machine
end

