-- ==== Sys2Proof/Laws/PerInstr.lean ====
section
/-! SUPPORT. Family RowMatch: an operation's command byte lies in the row of spec/opcode_table.json whose
mnemonic is its own, and in no other. -/

namespace Sys2Proof.Laws.RowMatch

/-- A well-formed operation's byte lies in exactly the row of its mnemonic (30_encoding.md R103). -/
def Statement (i : Instr) : Prop :=
  i.wellFormed = true → (opcodeTable.filter fun r => r.holds (encode i)).map (·.mnemonic) = [i.mnemonic]

/-- The rows a byte of a row lies in, by the 256 bytes. -/
theorem rows_of_byte : ∀ c : Byte,
    (inRow 0xF3 0x03 c = true → (opcodeTable.filter fun r => r.holds c).map (·.mnemonic) = ["ILLEGAL.RESERVED_OP"])
    ∧ (inRow 0xFB 0x0A c = true → (opcodeTable.filter fun r => r.holds c).map (·.mnemonic) = ["ILLEGAL.DEC_SG"])
    ∧ (inRow 0x80 0x80 c = true →
        (opcodeTable.filter fun r => r.holds c).map (·.mnemonic) = ["ILLEGAL.RESERVED_BITS.b7"])
    ∧ (inRow 0xC0 0x40 c = true →
        (opcodeTable.filter fun r => r.holds c).map (·.mnemonic) = ["ILLEGAL.RESERVED_BITS.b6"])
    ∧ (inRow 0xE0 0x20 c = true →
        (opcodeTable.filter fun r => r.holds c).map (·.mnemonic) = ["ILLEGAL.RESERVED_BITS.b5"])
    ∧ (inRow 0xF0 0x10 c = true →
        (opcodeTable.filter fun r => r.holds c).map (·.mnemonic) = ["ILLEGAL.RESERVED_BITS.b4"]) := by
  decide

theorem enc (cs sg : Bool) : Statement (.enc cs sg) := by
  intro _
  revert cs sg
  decide

theorem encb (cs sg : Bool) : Statement (.encb cs sg) := by
  intro _
  revert cs sg
  decide

theorem dec (cs : Bool) : Statement (.dec cs) := by
  intro _
  revert cs
  decide

theorem illegalReservedOp (c : Byte) : Statement (.illegalReservedOp c) := (rows_of_byte c).1

theorem illegalDecSg (c : Byte) : Statement (.illegalDecSg c) := (rows_of_byte c).2.1

theorem illegalReservedB7 (c : Byte) : Statement (.illegalReservedB7 c) := (rows_of_byte c).2.2.1

theorem illegalReservedB6 (c : Byte) : Statement (.illegalReservedB6 c) := (rows_of_byte c).2.2.2.1

theorem illegalReservedB5 (c : Byte) : Statement (.illegalReservedB5 c) := (rows_of_byte c).2.2.2.2.1

theorem illegalReservedB4 (c : Byte) : Statement (.illegalReservedB4 c) := (rows_of_byte c).2.2.2.2.2

end Sys2Proof.Laws.RowMatch
end

