-- ==== Sys2Proof/Laws/Records.lean ====
section
/-! SUPPORT. What the completion records of the encode and decode families are, said once in the words of
Safety.lean: the tests as propositions, the length an encode reports, how a scan ends, and what the
tests after the scan make of its result. -/

namespace Sys2Proof.Machine

/-! ### The tests of the encode family -/

theorem isNegative_iff {sg : Bool} {v : Word} :
    isNegative sg v = true ↔ sg = true ∧ v.getLsbD 63 = true := by
  simp [isNegative]

theorem destTooSmall_iff {d : Byte} : destTooSmall d = true ↔ d.toNat < 14 :=
  decide_eq_true_iff (p := d.toNat < outputSlots)

/-- OLEN is the length of the canonical string (41_encode.md R151). -/
theorem encodedLength_eq (v : Word) (cs : Bool) : encodedLength v cs = (encodedString v cs).length := by
  have h := encodeCore_spec v cs
  have h14 := h.2.1
  simp only [encodedLength, outputSlots]
  omega

/-! ### The scan of the decode family -/

/-- DEC's record on a length it scans (42_decode.md R171). -/
theorem recordOf_dec {s : State} (h : lengthOk s) (cs : Bool) :
    recordOf (.dec cs) s =
      match scan cs s.ibuf s.ilen.toNat scanStart with
      | .error f => raise f
      | .ok a => finishScan s.cfg cs a := by
  obtain ⟨h1, h2⟩ := h
  have hb : ¬ lengthBeyondBuffer s.cfg s.ilen = true := by simp [lengthBeyondBuffer]; omega
  have he : ¬ s.ilen = 0#8 := by rintro h; simp [h] at h1
  unfold recordOf decRecord
  exact (if_neg hb).trans (if_neg he)

/-- Hyphens at the end of the scanned part change nothing (42_decode.md R176). -/
theorem scan_hyphens {cs : Bool} {ibuf : Memory} {n k : Nat} {a : Scan} (hk : k ≤ n)
    (h : ∀ j, k ≤ j → j < n → ibuf.read j = hyphen) : scan cs ibuf n a = scan cs ibuf k a := by
  induction n with
  | zero =>
    obtain rfl : k = 0 := by omega
    rfl
  | succ n ih =>
    by_cases e : k = n + 1
    · rw [e]
    · rw [scan, h n (by omega) (by omega), scanChar_hyphen]
      exact ih (by omega) fun j h1 h2 => h j h1 (by omega)

/-- How a scan fails: at a character that is no hyphen and is not valid in the table it is looked up in
(42_decode.md R178, R180). -/
theorem scan_error {cs : Bool} {ibuf : Memory} {n : Nat} {a : Scan} {f : Failure}
    (h : scan cs ibuf n a = .error f) :
    ∃ k, k < n ∧ ibuf.read k ≠ hyphen
      ∧ ((f = .dataSymbol (position k) (ibuf.read k) ∧ dataDec (ibuf.read k) = none)
        ∨ (cs = true ∧ f = .checkSymbol (position k) (ibuf.read k) ∧ chkDec (ibuf.read k) = none)) := by
  induction n generalizing a with
  | zero => cases h
  | succ n ih =>
    rw [scan] at h
    cases hc : scanChar cs n (ibuf.read n) a with
    | ok b =>
      rw [hc] at h
      obtain ⟨k, h1, h2⟩ := ih h
      exact ⟨k, by omega, h2⟩
    | error g =>
      rw [hc] at h
      obtain rfl : g = f := by cases h; rfl
      refine ⟨n, by omega, fun hy => ?_, ?_⟩
      · rw [hy, scanChar_hyphen] at hc
        cases hc
      · unfold scanChar at hc
        split_ifs at hc with h1 h2
        · split at hc
          · cases hc
            simp only [Bool.and_eq_true, Bool.not_eq_true'] at h2
            exact .inr ⟨h2.1, rfl, ‹_›⟩
          · cases hc
        · split at hc
          · cases hc
            exact .inl ⟨rfl, ‹_›⟩
          · cases hc

/-- What a check symbol and then the data values `ds` leave (40_arith_check.md R127). -/
theorem consumeAll_recordCheck (v : BitVec 6) (ds : List (BitVec 5)) :
    ((scanStart.recordCheck v).consumeAll ds).acc = BitVec.ofNat 64 (number ds)
    ∧ ((scanStart.recordCheck v).consumeAll ds).ndata = ds.length
    ∧ ((scanStart.recordCheck v).consumeAll ds).ovf = decide (2 ^ 64 ≤ number ds)
    ∧ ((scanStart.recordCheck v).consumeAll ds).ck = v
    ∧ ((scanStart.recordCheck v).consumeAll ds).ckseen = true := by
  obtain ⟨h1, h2, h3⟩ := Scan.consumeAll_spec (Scan.recordCheck_mulOk scanStart_mulOk v) ds
  obtain ⟨h4, h5⟩ := Scan.consumeAll_ck (scanStart.recordCheck v) ds
  refine ⟨by simpa [scanStart, Scan.recordCheck] using h1,
    by simpa [scanStart, Scan.recordCheck] using h2, ?_, h4, h5⟩
  rw [Bool.eq_iff_iff, decide_eq_true_eq, h3]
  simp [scanStart, Scan.recordCheck]

/-! ### The tests after the scan -/

theorem finishScan_noData {cfg : Config} {cs : Bool} {a : Scan} (h : a.ndata = 0)
    (hp : cfg.nodataIsZero = false) : finishScan cfg cs a = raise .noData := by
  rw [finishScan, if_pos ⟨h, hp⟩]

/-- Without a check symbol (42_decode.md R189). -/
theorem finishScan_data (cfg : Config) (ds : List (BitVec 5)) (h : ds ≠ [] ∨ cfg.nodataIsZero = true) :
    finishScan cfg false (scanStart.consumeAll ds) =
      decodedRecord (BitVec.ofNat 64 (number ds)) (decide (2 ^ 64 ≤ number ds)) 0 := by
  obtain ⟨h1, h2, h3⟩ := consumeAll_start ds
  rw [finishScan, if_neg, h1, h3, ← succeedDecode_eq]
  · rfl
  · rw [h2]
    rintro ⟨a, b⟩
    rcases h with h | h
    · exact h (List.length_eq_zero_iff.mp a)
    · simp [h] at b

/-- With a check symbol: the verification and the success (42_decode.md R188, R189). -/
theorem finishScan_check (cfg : Config) (ds : List (BitVec 5)) (v : BitVec 6)
    (h : ds ≠ [] ∨ cfg.nodataIsZero = true) :
    finishScan cfg true ((scanStart.recordCheck v).consumeAll ds) =
      if number ds % 2 ^ 64 % 37 = v.toNat then
        decodedRecord (BitVec.ofNat 64 (number ds)) (decide (2 ^ 64 ≤ number ds)) (v.setWidth 8)
      else failedRecord 0x22 8 0 0 (BitVec.ofNat 8 (number ds % 2 ^ 64 % 37)) (v.setWidth 8) := by
  obtain ⟨h1, h2, h3, h4, h5⟩ := consumeAll_recordCheck v ds
  have hc : checkValue (BitVec.ofNat 64 (number ds)) = number ds % 2 ^ 64 % 37 := by simp [checkValue]
  rw [finishScan, if_neg, if_pos rfl, if_neg (by rw [h5]; decide), h1, h3, h4, hc]
  · by_cases he : number ds % 2 ^ 64 % 37 = v.toNat
    · rw [if_neg (by simpa using he), if_pos he, ← succeedDecode_eq, he]
      congr 1
      exact BitVec.eq_of_toNat_eq (by simp)
    · rw [if_pos he, if_neg he, raise_checkMismatch]
  · rw [h2]
    rintro ⟨a, b⟩
    rcases h with h | h
    · exact h (List.length_eq_zero_iff.mp a)
    · simp [h] at b

/-! ### What the tables give -/

theorem encSymbol_ne_hyphen : ∀ v, v < 37 → encSymbol v ≠ hyphen := by decide

theorem encSymbol_ne_zero : ∀ v, v < 37 → encSymbol v ≠ 0 := by decide

theorem chkDec_le {c : Byte} {v : BitVec 6} (h : chkDec c = some v) : v.toNat ≤ 36 := by
  have hall : ∀ c : Byte, ((chkDec c).getD 0).toNat ≤ 36 := by decide
  simpa [h] using hall c

end Sys2Proof.Machine
end

