-- ==== Sys2Proof/Laws/Step.lean ====
section
/-! SUPPORT. What one step can do, said once: which agent moves, and every change a HOST step can make.
Whole-machine rules and invariants are derived from these, not from the step's definition. -/

namespace Sys2Proof.Machine

/-! ### Which agent moves -/

/-- ENGINE moves only while an operation runs (10_state.md R46). -/
theorem nextAgent_engine {s : State} (h : nextAgent s = some .engine) : s.busy = true := by
  unfold nextAgent at h
  split at h <;> split at h <;> simp_all

/-- While an operation runs some agent moves (60_exceptions.md R222). -/
theorem nextAgent_busy {s : State} (h : s.busy = true) : nextAgent s ≠ none := by
  unfold nextAgent
  split <;> split <;> simp_all

/-- With no schedule left and an operation running, ENGINE moves. -/
theorem nextAgent_busy_nil {s : State} (h : s.busy = true) (ht : s.turns = []) :
    nextAgent s = some .engine := by
  simp [nextAgent, h, ht]

/-- While no operation runs only HOST moves, whatever the schedule. -/
theorem nextAgent_idle {s : State} (h : s.busy = false) (hs : s.hostCanMove = true) :
    nextAgent s = some .host := by
  unfold nextAgent
  split <;> simp_all

/-- HOST moves only with a program. -/
theorem nextAgent_host {s : State} (h : nextAgent s = some .host) : s.hostCanMove = true := by
  unfold nextAgent at h
  split at h <;> split at h <;> simp_all

theorem step_engine {s : State} (h : nextAgent s = some .engine) :
    step s = exec (decode s.cmd) s.popTurn := by
  simp [step, h, engineStep]

theorem step_host {s : State} (h : nextAgent s = some .host) : step s = hostStep s.popTurn := by
  simp [step, h]

theorem step_none {s : State} (h : nextAgent s = none) : step s = .next s := by
  simp [step, h]

/-! ### What HOST can do -/

/-- Every change a HOST step can make: nothing, a read, a write, or the reset. -/
theorem hostStep_cases {s t : State} (h : hostStep s = .next t) :
    (s.script = [] ∧ t = s)
    ∨ (∃ a p, addressExists s.cfg a = true ∧ t = (s.hostRead a).withScript p)
    ∨ (∃ a v rest, (s.script = .wr a v :: rest
          ∨ ∃ a' seen, s.script = .wrLast a :: rest ∧ s.seen = (a', v) :: seen)
        ∧ addressExists s.cfg a = true ∧ valueFits a v = true
        ∧ t = (s.hostWrite a v).withScript rest)
    ∨ (∃ rest, s.script = .rst :: rest ∧ t = s.blockReset.withScript rest) := by
  have hread : ∀ {a : HostAddr} {f : Word → List HostStep}, readThen s a f = .next t →
      ∃ a p, addressExists s.cfg a = true ∧ t = (s.hostRead a).withScript p := by
    intro a f h
    unfold readThen at h
    split at h
    · injection h with h
      exact ⟨a, _, ‹_›, h.symm⟩
    · cases h
  have hwrite : ∀ {a : HostAddr} {v : Word} {rest : List HostStep}, writeThen s a v rest = .next t →
      addressExists s.cfg a = true ∧ valueFits a v = true ∧ t = (s.hostWrite a v).withScript rest := by
    intro a v rest h
    unfold writeThen at h
    split at h
    · split at h
      · injection h with h
        exact ⟨‹_›, ‹_›, h.symm⟩
      · cases h
    · cases h
  unfold hostStep at h
  split at h
  · injection h with h
    exact .inl ⟨‹_›, h.symm⟩
  · exact .inr (.inl (hread h))
  · exact .inr (.inr (.inl ⟨_, _, _, .inl ‹_›, hwrite h⟩))
  · split at h
    · cases h
    · exact .inr (.inr (.inl ⟨_, _, _, .inr ⟨_, _, ‹_›, ‹_›⟩, hwrite h⟩))
  · exact .inr (.inl (hread h))
  · split at h
    · cases h
    · exact .inr (.inl (hread h))
  · split at h
    · cases h
    · exact .inr (.inl (hread h))
  · exact .inr (.inl (hread h))
  · injection h with h
    exact .inr (.inr (.inr ⟨_, ‹_›, h.symm⟩))

/-- Every change an idle write can make: start an operation, take an operand, or nothing. -/
theorem idleWrite_cases (s : State) (v : Word) (a : HostAddr) :
    (a = .reg .cmd ∧ s.idleWrite v a = s.startCommand (v.setWidth 8))
    ∨ (a = .reg .vin ∧ s.idleWrite v a = { s with vin := v })
    ∨ (a = .reg .dlen ∧ s.idleWrite v a = { s with dlen := v.setWidth 8 })
    ∨ (a = .reg .ilen ∧ s.idleWrite v a = { s with ilen := v.setWidth 8 })
    ∨ (∃ i, a = .ibuf i ∧ s.idleWrite v a = { s with ibuf := s.ibuf.write i (v.setWidth 8) })
    ∨ s.idleWrite v a = s := by
  cases a with
  | reg r => cases r <;> simp [State.idleWrite]
  | ibuf i => simp [State.idleWrite]
  | obuf i => simp [State.idleWrite]

/-- Every change a write can make: none while an operation runs. -/
theorem hostWrite_busy {s : State} (h : s.busy = true) (a : HostAddr) (v : Word) :
    s.hostWrite a v = s := by
  simp [State.hostWrite, h]

theorem hostWrite_idle {s : State} (h : s.busy = false) (a : HostAddr) (v : Word) :
    s.hostWrite a v = s.idleWrite v a := by
  simp [State.hostWrite, h]

end Sys2Proof.Machine
end

