-- ==== Sys2Proof/Laws/Run.lean ====
section
/-! SUPPORT. Runs of several steps: how two runs join, what one step can do (the inversion every
whole-machine rule is derived from), and HOST's steps while the block is idle. -/

namespace Sys2Proof.Machine

/-- Everything a step can do: ENGINE completes the operation in CMD, HOST takes its next step, or
nothing happens because no agent can move. -/
theorem step_cases {s t : State} (h : step s = .next t) :
    (s.busy = true ∧ t = s.popTurn.complete (recordOf (decode s.cmd) s.popTurn))
    ∨ (s.hostCanMove = true ∧ hostStep s.popTurn = .next t)
    ∨ (t = s ∧ nextAgent s = none) := by
  cases ha : nextAgent s with
  | none =>
    rw [step_none ha] at h
    injection h with h
    exact .inr (.inr ⟨h.symm, rfl⟩)
  | some a =>
    cases a with
    | engine =>
      rw [step_engine ha, exec_next_iff] at h
      exact .inl ⟨nextAgent_engine ha, h⟩
    | host =>
      rw [step_host ha] at h
      exact .inr (.inl ⟨nextAgent_host ha, h⟩)

/-- A run of `k` steps and then one of `j` is a run of `k + j`. -/
theorem runFor_add {k j : Nat} {s t u : State} (h : runFor k s = .next t) (h2 : runFor j t = .next u) :
    runFor (k + j) s = .next u := by
  induction k generalizing s with
  | zero =>
    simp only [runFor] at h
    injection h with h
    rw [h, Nat.zero_add]
    exact h2
  | succ k ih =>
    rw [show k + 1 + j = (k + j) + 1 by omega]
    rw [runFor] at h ⊢
    cases hs : step s with
    | next x => rw [hs] at h; exact ih h
    | fault x => rw [hs] at h; cases h
    | refused x => rw [hs] at h; cases h

theorem runFor_one {s t : State} (h : step s = .next t) : runFor 1 s = .next t := by
  simp [runFor, h]

/-- While an operation runs a HOST step other than the reset changes nothing of the block: only HOST's
program, what HOST has read, and the count of free values (10_state.md R40, R43 to R45). -/
theorem hostStep_busy {s t : State} (hb : s.busy = true) (h : hostStep s = .next t) :
    (∃ rest, s.script = .rst :: rest)
    ∨ ∃ p seen draws, t = { s with script := p, seen := seen, draws := draws } := by
  rcases hostStep_cases h with ⟨-, rfl⟩ | ⟨a, p, -, rfl⟩ | ⟨a, v, rest, -, -, -, rfl⟩ | ⟨rest, hs, -⟩
  · exact .inr ⟨_, _, _, rfl⟩
  · exact .inr ⟨_, _, _, rfl⟩
  · rw [hostWrite_busy hb]
    exact .inr ⟨_, _, _, rfl⟩
  · exact .inl ⟨rest, hs⟩

/-- A byte presented at the port fits every 8-bit element. -/
theorem valueFits_byte {a : HostAddr} (h : elementWidth a = 8) (b : Byte) :
    valueFits a (b.setWidth 64) = true := by
  have hb := b.isLt
  refine decide_eq_true ?_
  rw [h, BitVec.toNat_setWidth_of_le (by omega)]
  exact hb

theorem setWidth_byte (b : Byte) : (b.setWidth 64).setWidth 8 = b := by
  simp

/-- While the block is idle HOST's next step is the machine's, whatever the schedule. -/
theorem step_idle {s : State} {x : HostStep} {rest : List HostStep} (hb : s.busy = false)
    (hs : s.script = x :: rest) : step s = hostStep s.popTurn :=
  step_host (nextAgent_idle hb (by simp [State.hostCanMove, hs]))

theorem step_idle_wr {s : State} {a : HostAddr} {v : Word} {rest : List HostStep} (hb : s.busy = false)
    (hs : s.script = .wr a v :: rest) (he : addressExists s.cfg a = true) (hv : valueFits a v = true) :
    step s = .next ((s.popTurn.idleWrite v a).withScript rest) := by
  have hp : s.popTurn.script = .wr a v :: rest := hs
  rw [step_idle hb hs]
  simp only [hostStep, hp, writeThen]
  rw [if_pos (by exact he), if_pos hv, hostWrite_idle (by exact hb)]

theorem step_idle_rd {s : State} {a : HostAddr} {rest : List HostStep} (hb : s.busy = false)
    (hs : s.script = .rd a :: rest) (he : addressExists s.cfg a = true) :
    step s = .next ((s.popTurn.hostRead a).withScript rest) := by
  have hp : s.popTurn.script = .rd a :: rest := hs
  rw [step_idle hb hs]
  simp only [hostStep, hp, readThen]
  rw [if_pos (by exact he)]

end Sys2Proof.Machine
end

