-- ==== Sys2Proof/Tests/Slice0.lean ====
section
/-! SUPPORT. Tests of the model, each expected result taken from the spec, and the witnesses: for every
statement with hypotheses, states and operands that meet all of them together, at the edges of their
ranges. -/

namespace Sys2Proof.Tests
open Sys2Proof Sys2Proof.Machine

/-! ### Helpers -/

/-- A buffer holding these characters from index 0 on. -/
def buffer (cs : List Nat) : Memory :=
  cs.zipIdx.foldl (fun m p => m.write p.2 (BitVec.ofNat 8 p.1)) []

/-- The reset state with an input for DEC. -/
def withInput (cs : List Nat) : State :=
  { State.reset with ibuf := buffer cs, ilen := BitVec.ofNat 8 cs.length }

/-- The same under the legacy parameter P_NODATA_IS_ZERO = 1. -/
def withInputLegacy (cs : List Nat) : State :=
  { withInput cs with cfg := { lmax := 32, nodataIsZero := true } }

/-- The reset state with operands for ENC and ENCB. -/
def withValue (v : Word) (dlen : Byte) : State := { State.reset with vin := v, dlen := dlen }

/-- The state an operation leaves. -/
def after (i : Instr) (s : State) : State :=
  match exec i s with
  | .next t => t
  | .fault _ => s
  | .refused _ => s

/-- The state a step of the machine leaves. -/
def stepped (s : State) : State :=
  match step s with
  | .next t => t
  | .fault _ => s
  | .refused _ => s

/-- A running operation. -/
def running : State := { State.reset with cmd := 0x04, status := 0x01, vin := 255 }

/-- OBUF as a list of 14 characters. -/
def outChars (s : State) : List Nat := (List.range 14).map fun j => (s.obuf.read j).toNat

/-! ### The command word: bytes written out from the fields of 30_encoding.md R100 -/

theorem test_decode_enc : decode 0b0000_00_00 = .enc false false := by decide
theorem test_decode_enc_cs : decode 0b0000_01_00 = .enc true false := by decide
theorem test_decode_enc_s : decode 0b0000_10_00 = .enc false true := by decide
theorem test_decode_encb : decode 0b0000_00_01 = .encb false false := by decide
theorem test_decode_encb_cs_s : decode 0b0000_11_01 = .encb true true := by decide
theorem test_decode_dec : decode 0b0000_00_10 = .dec false := by decide
theorem test_decode_dec_cs : decode 0b0000_01_10 = .dec true := by decide
theorem test_decode_reserved_op : decode 0b0000_10_11 = .illegalReservedOp 0x0B := by decide
theorem test_decode_dec_sg : decode 0b0000_11_10 = .illegalDecSg 0x0E := by decide
theorem test_decode_b7 : decode 0b1000_00_00 = .illegalReservedB7 0x80 := by decide
theorem test_decode_b7_first : decode 0b1111_11_11 = .illegalReservedB7 0xFF := by decide
theorem test_decode_b6 : decode 0b0101_00_01 = .illegalReservedB6 0x51 := by decide
theorem test_decode_b5 : decode 0b0011_00_11 = .illegalReservedB5 0x33 := by decide
/-- 0x13 has OP = 0b11 and a reserved bit: reserved bits are tested first (95_test_vectors.md 2.10). -/
theorem test_decode_b4_before_op : decode 0b0001_00_11 = .illegalReservedB4 0x13 := by decide
theorem test_encode_encb_s : encode (.encb false true) = 0b0000_10_01 := by decide
theorem test_table_word : decodeTableWord 8 0x06 = some (.dec true) := by decide
theorem test_no_byte_no_command : decodeBytes [] = .error .noCommandByte := by decide
/-- 95_test_vectors.md 2.10: 10 legal bytes, 4 RESERVED_OP. -/
theorem test_legal_byte_count :
    ((List.range 256).filter fun c => (decode (BitVec.ofNat 8 c)).legal).length = 10 := by decide
theorem test_reserved_op_count : ((List.range 256).filter fun c =>
    (decode (BitVec.ofNat 8 c)).mnemonic == "ILLEGAL.RESERVED_OP").length = 4 := by decide

/-! ### WellFormed refuses -/

theorem smoke_reserved_op : (Instr.illegalReservedOp 0x00).wellFormed = false := by decide
theorem smoke_dec_sg : (Instr.illegalDecSg 0x06).wellFormed = false := by decide
theorem smoke_b7 : (Instr.illegalReservedB7 0x7F).wellFormed = false := by decide
theorem smoke_b6 : (Instr.illegalReservedB6 0xC0).wellFormed = false := by decide
theorem smoke_b5 : (Instr.illegalReservedB5 0x60).wellFormed = false := by decide
theorem smoke_b4 : (Instr.illegalReservedB4 0x30).wellFormed = false := by decide
theorem smoke_lmax_small : ({ lmax := 13, nodataIsZero := false } : Config).wellFormed = false := by decide
theorem smoke_lmax_large : ({ lmax := 256, nodataIsZero := true } : Config).wellFormed = false := by decide
theorem smoke_lmax_edges : ({ lmax := 14, nodataIsZero := false } : Config).wellFormed = true
    ∧ ({ lmax := 255, nodataIsZero := true } : Config).wellFormed = true := by decide

/-! ### The operations (95_test_vectors.md) -/

/-- Section 1, S3: `ENC.CS 255` gives "7Z~", OLEN 3, OSTART 11, STATUS 0x06. -/
theorem test_enc_cs_255 : (after (.enc true false) (withValue 255 0)).results
    = encodedRecord [(11, 0x37), (12, 0x5A), (13, 0x7E)] 3 11 := by decide

/-- Section 2.3: `ENC.CS 2^64 - 1` fills all 14 slots, check symbol 'B'. -/
theorem test_enc_cs_max : outChars (after (.enc true false) (withValue 0xFFFFFFFFFFFFFFFF 0))
    = [0x46, 0x5A, 0x5A, 0x5A, 0x5A, 0x5A, 0x5A, 0x5A, 0x5A, 0x5A, 0x5A, 0x5A, 0x5A, 0x42] := by decide

/-- Section 2.4: `ENCB 0, 255` gives OSTART 254. -/
theorem test_encb_ostart : (after (.encb false false) (withValue 0 255)).ostart = 254 := by decide

/-- Section 2.4: `ENCB.S -1, 10` reports NEG_VALUE, `ENCB 0, 13` DEST_TOO_SMALL. -/
theorem test_encb_errors : (after (.encb false true) (withValue 0xFFFFFFFFFFFFFFFF 10)).ecause = 1
    ∧ (after (.encb false false) (withValue 0 13)).status = 0x12 := by decide

/-- Section 2.5: `DEC.CS "--7--Z--~--"` gives 255, CKCALC = CKSYM = 33. -/
theorem test_dec_cs_hyphens : (after (.dec true) (withInput
      [0x2D, 0x2D, 0x37, 0x2D, 0x2D, 0x5A, 0x2D, 0x2D, 0x7E, 0x2D, 0x2D])).results
    = decodedRecord 255 false 33 := by decide

/-- Section 2.8: `DEC "H000000000000"` wraps to 2^60 with OVF. -/
theorem test_dec_overflow : (after (.dec false) (withInput
      [0x48, 0x30, 0x30, 0x30, 0x30, 0x30, 0x30, 0x30, 0x30, 0x30, 0x30, 0x30, 0x30])).results
    = decodedRecord 0x1000000000000000 true 0 := by decide

/-- Section 2.10: the illegal classes' records. -/
theorem test_illegal_reserved_op : (after (.illegalReservedOp 0x03) (withInput [0x30])).results
    = failedRecord 0x2A 9 0 0 0 0 := by decide
theorem test_illegal_dec_sg : (after (.illegalDecSg 0x0A) (withInput [0x30])).ecause = 10 := by decide
theorem test_illegal_b7 : (after (.illegalReservedB7 0xFF) (withInput [0x30])).status = 0x2A := by decide
theorem test_illegal_b6 : (after (.illegalReservedB6 0x40) (withInput [0x30])).ecause = 10 := by decide
theorem test_illegal_b5 : (after (.illegalReservedB5 0x20) (withInput [0x30])).ecause = 10 := by decide
theorem test_illegal_b4 : (after (.illegalReservedB4 0x1A) (withInput [0x30])).ecause = 10 := by decide

/-! ### The protocol (95_test_vectors.md 2.11) -/

/-- T3: `WR REG:0, 0x04` starts an operation. -/
theorem test_cmd_write : stepped { withValue 255 0 with script := [.wr (.reg .cmd) 0x04] }
    = { running with script := [] } := by decide
/-- T4: `WR REG:2, 7` while busy is lost (HOST has the turn). -/
theorem test_busy_write_lost : (stepped { running with
      script := [.wr (.reg .vin) 7], turns := [.host] }).vin = 255 := by decide
/-- T9: the completion step. -/
theorem test_completion : (stepped running).status = 0x06 ∧ (stepped running).olen = 3
    ∧ (stepped running).cmd = 0x04 := by decide
/-- T13: rst while busy. -/
theorem test_reset_while_busy : stepped { running with script := [.rst], turns := [.host] }
    = State.reset := by decide
/-- T14: ENC straight after reset encodes 0. -/
theorem test_enc_after_reset : (stepped (State.reset.withFetchWord 8 0x00)).obuf = [(13, 0x30)] := by decide
/-- T15: DEC straight after reset fails with EMPTY_INPUT. -/
theorem test_dec_after_reset : (stepped (State.reset.withFetchWord 8 0x02)).ecause = 2 := by decide
/-- TRYENC's consumer reads on only if OK = 1 (30_encoding.md R108). -/
theorem test_if_ok : (stepped { State.reset with status := 0x06, script := [.ifOk .decoded] }).script
    = [.rd (.reg .vout)]
    ∧ (stepped { State.reset with status := 0x0A, script := [.ifOk .decoded] }).script = [] := by decide
/-- 30_encoding.md R107: the expansion of `DEC.CS "7Z"`. -/
theorem test_expand_dec : HostStmt.expand (.dec true [0x37, 0x5A])
    = [.wr (.ibuf 0) 0x37, .wr (.ibuf 1) 0x5A, .wr (.reg .ilen) 2, .wr (.reg .cmd) 0x06, .wait] := by decide
/-- 30_encoding.md R108: COPYOUT of a string of 2 symbols. -/
theorem test_copyOut : (stepped { State.reset with olen := 2, script := [.copyOut] }).script
    = [.rd (.obuf 12), .wrLast (.ibuf 0), .rd (.obuf 13), .wrLast (.ibuf 1), .wr (.reg .ilen) 2] := by decide
/-- 20_memory.md R62, 93_implementation_defined.md U4: an address that is not listed is refused. -/
theorem test_unmapped : hostStep { State.reset with script := [.rd (.ibuf 32)] }
    = .refused (.unmappedAddress (.ibuf 32)) := rfl

/-! ### Witnesses of the statements' hypotheses -/

theorem witness_IllegalCommandsCompleteByClass :
    (0x10 : Byte) >>> 4 ≠ 0 ∧ (0xFF : Byte) >>> 4 ≠ 0
    ∧ ((0x0F : Byte) >>> 4 = 0 ∧ (0x0F : Byte) &&& 3 = 3)
    ∧ ((0x0E : Byte) >>> 4 = 0 ∧ (0x0E : Byte) &&& 3 = 2 ∧ (0x0E : Byte).getLsbD 3 = true)
    ∧ State.reset.busy = false := by decide

theorem witness_DecodeOfEncodeIsTheOperation :
    (Instr.enc true true).wellFormed = true ∧ (Instr.illegalReservedOp 0x0F).wellFormed = true
    ∧ (Instr.illegalDecSg 0x0E).wellFormed = true ∧ (Instr.illegalReservedB7 0xFF).wellFormed = true
    ∧ (Instr.illegalReservedB6 0x7F).wellFormed = true ∧ (Instr.illegalReservedB5 0x3F).wellFormed = true
    ∧ (Instr.illegalReservedB4 0x1F).wellFormed = true := by decide

theorem witness_StepRunsTheLatchedOperation :
    (running.cmd = encode (.enc true false) ∧ (Instr.enc true false).wellFormed = true
      ∧ nextAgent running = some .engine)
    ∧ nextAgent { running with script := [.wait], turns := [.host] } = some .host
    ∧ nextAgent State.reset = none := by decide

theorem witness_ScheduleChoosesTheAgent :
    (nextAgent running = some .engine ∧ running.busy = true ∧ running.script = [] ∧ running.turns = [])
    ∧ ({ running with script := [.wait] } : State).turns = []
    ∧ (State.reset.busy = false ∧ State.reset.script = [])
    ∧ ({ State.reset with script := [.wait] } : State).script ≠ []
    ∧ (({ running with script := [.wait], turns := [.host] } : State).busy = true
      ∧ ({ running with script := [.wait], turns := [.host] } : State).script ≠ []
      ∧ ({ running with script := [.wait], turns := [.host] } : State).turns = .host :: [])
    ∧ (({ running with script := [.wait], turns := [.engine, .host] } : State).busy = true
      ∧ ({ running with script := [.wait], turns := [.engine, .host] } : State).turns
        = .engine :: [.host]) := by decide

theorem witness_EncWritesTheCanonicalString :
    (withValue 0x8000000000000000 0).vin.getLsbD 63 = true
    ∧ ¬ (true = true ∧ (withValue 0x7FFFFFFFFFFFFFFF 0).vin.getLsbD 63 = true) := by decide

theorem witness_EncbWritesForTheDestination :
    (withValue 0x8000000000000000 13).vin.getLsbD 63 = true
    ∧ (¬ (true = true ∧ (withValue 0x7FFFFFFFFFFFFFFF 13).vin.getLsbD 63 = true)
      ∧ (withValue 0x7FFFFFFFFFFFFFFF 13).dlen.toNat < 14)
    ∧ (¬ (false = true ∧ (withValue 0xFFFFFFFFFFFFFFFF 14).vin.getLsbD 63 = true)
      ∧ 14 ≤ (withValue 0xFFFFFFFFFFFFFFFF 14).dlen.toNat)
    ∧ (withValue 0 14).dlen.toNat = 14 := by decide

theorem witness_SignTestIsAllThatSgChanges :
    (withValue 0x8000000000000000 0).vin.getLsbD 63 = true
    ∧ (withValue 0x7FFFFFFFFFFFFFFF 0).vin.getLsbD 63 = false := by decide

theorem witness_DestinationBoundIsFourteen :
    ¬ (true = true ∧ (withValue 1 13).vin.getLsbD 63 = true) ∧ (withValue 1 13).dlen.toNat < 14
    ∧ ¬ (true = true ∧ (withValue 1 14).vin.getLsbD 63 = true) ∧ 14 ≤ (withValue 1 14).dlen.toNat := by
  decide

theorem witness_StartOffsetReachesTheDestinationsEnd :
    (¬ (true = true ∧ (withValue 0 255).vin.getLsbD 63 = true) ∧ 14 ≤ (withValue 0 255).dlen.toNat)
    ∧ (¬ (false = true ∧ (withValue 0xFFFFFFFFFFFFFFFF 14).vin.getLsbD 63 = true)
      ∧ 14 ≤ (withValue 0xFFFFFFFFFFFFFFFF 14).dlen.toNat) := by decide

theorem witness_GroupCountIsTheNumberOfRounds :
    groupCount 0x0FFFFFFFFFFFFFFF = 12 ∧ groupCount 0x1000000000000000 = 13 ∧ (1 : Word) ≠ 0 := by decide

theorem witness_CheckSymbolIsTheLastSymbol :
    ¬ (true = true ∧ (withValue 0x7FFFFFFFFFFFFFFF 14).vin.getLsbD 63 = true)
    ∧ 14 ≤ (withValue 0x7FFFFFFFFFFFFFFF 14).dlen.toNat ∧ 31 < 32 := by decide

theorem witness_EncodeDependsOnItsOperandsAlone :
    (withValue 5 20).vin = ({ withInput [0x30] with vin := 5, dlen := 20, status := 0x22 } : State).vin
    ∧ (withValue 5 20).dlen
      = ({ withInput [0x30] with vin := 5, dlen := 20, status := 0x22 } : State).dlen := by decide

theorem witness_DecodeTablesInvertTheEncodeTable : 31 < 32 ∧ 36 < 37 := by decide

theorem witness_RelaxedTableFoldsCaseAndLookalikes :
    31 < 32 ∧ (10 ≤ 10 ∧ 10 < 32) ∧ 0x80 ≤ (0x80 : Byte).toNat := by decide

theorem witness_LengthTestsComeFirst :
    State.reset.cfg.lmax < ({ State.reset with ilen := 33 } : State).ilen.toNat
    ∧ State.reset.ilen = 0 := by decide

theorem witness_DecDeliversTheNumber :
    (lengthOk (withInput [0x37, 0x2D, 0x5A]) ∧ ([31, 7] : List (BitVec 5)) ≠ []
      ∧ decodesTo (scannedChars (withInput [0x37, 0x2D, 0x5A]).ibuf 3) [31, 7])
    ∧ (lengthOk (withInput [0x37, 0x5A, 0x7E])
      ∧ scannedChars (withInput [0x37, 0x5A, 0x7E]).ibuf 3 = [0x7E, 0x5A, 0x37]
      ∧ chkDec 0x7E = some 33 ∧ decodesTo [0x5A, 0x37] [31, 7]
      ∧ number [31, 7] % 2 ^ 64 % 37 = (33 : BitVec 6).toNat)
    ∧ (lengthOk (withInputLegacy [0x2D]) ∧ (withInputLegacy [0x2D]).cfg.nodataIsZero = true
      ∧ decodesTo (scannedChars (withInputLegacy [0x2D]).ibuf 1) []) := by decide

theorem witness_DecSucceedsOnAcceptedInputOnly :
    statusOk (after (.dec true) (withInput [0x37, 0x5A, 0x7E])).status = true
    ∧ statusOk (after (.dec false) (withInput [0x37, 0x5A])).status = true := by decide

theorem witness_BadCheckSymbolIsReported :
    lengthOk (withInput [0x37, 0x75, 0x2D]) ∧ 1 < (withInput [0x37, 0x75, 0x2D]).ilen.toNat
    ∧ (∀ j, 1 < j → j < (withInput [0x37, 0x75, 0x2D]).ilen.toNat →
        (withInput [0x37, 0x75, 0x2D]).ibuf.read j = hyphen)
    ∧ (withInput [0x37, 0x75, 0x2D]).ibuf.read 1 ≠ hyphen
    ∧ chkDec ((withInput [0x37, 0x75, 0x2D]).ibuf.read 1) = none
    ∧ (0x61 ≤ (0x61 : Byte).toNat ∧ (0x7A : Byte).toNat ≤ 0x7A) := by
  refine ⟨by decide, by decide, fun j h1 h2 => ?_, by decide, by decide, by decide⟩
  have h3 : (withInput [0x37, 0x75, 0x2D]).ilen.toNat = 3 := by decide
  obtain rfl : j = 2 := by omega
  decide

theorem witness_BadDataSymbolNearestTheEndIsReported :
    lengthOk (withInput [0x21, 0x37, 0x7E]) ∧ 0 < (withInput [0x21, 0x37, 0x7E]).ilen.toNat
    ∧ (withInput [0x21, 0x37, 0x7E]).ibuf.read 0 ≠ hyphen
    ∧ dataDec ((withInput [0x21, 0x37, 0x7E]).ibuf.read 0) = none
    ∧ (0 < 2 ∧ 2 < (withInput [0x21, 0x37, 0x7E]).ilen.toNat
      ∧ (withInput [0x21, 0x37, 0x7E]).ibuf.read 2 ≠ hyphen
      ∧ (chkDec ((withInput [0x21, 0x37, 0x7E]).ibuf.read 2)).isSome = true
      ∧ (∀ j, 2 < j → j < (withInput [0x21, 0x37, 0x7E]).ilen.toNat →
          (withInput [0x21, 0x37, 0x7E]).ibuf.read j = hyphen)
      ∧ (∀ j, 0 < j → j < 2 → (withInput [0x21, 0x37, 0x7E]).ibuf.read j = hyphen
          ∨ (dataDec ((withInput [0x21, 0x37, 0x7E]).ibuf.read j)).isSome = true)) := by
  have h3 : (withInput [0x21, 0x37, 0x7E]).ilen.toNat = 3 := by decide
  refine ⟨by decide, by decide, by decide, by decide, by decide, by decide, by decide, by decide,
    fun j h1 h2 => by omega, fun j h1 h2 => ?_⟩
  obtain rfl : j = 1 := by omega
  decide

/-- The CS = 0 clause, at the last character of the input. -/
theorem witness_BadDataSymbol_last :
    lengthOk (withInput [0x37, 0x2A]) ∧ 1 < (withInput [0x37, 0x2A]).ilen.toNat
    ∧ (withInput [0x37, 0x2A]).ibuf.read 1 ≠ hyphen
    ∧ dataDec ((withInput [0x37, 0x2A]).ibuf.read 1) = none
    ∧ (∀ j, 1 < j → j < (withInput [0x37, 0x2A]).ilen.toNat →
        (withInput [0x37, 0x2A]).ibuf.read j = hyphen
        ∨ (dataDec ((withInput [0x37, 0x2A]).ibuf.read j)).isSome = true) := by
  have h2 : (withInput [0x37, 0x2A]).ilen.toNat = 2 := by decide
  exact ⟨by decide, by decide, by decide, by decide, fun j h1 h3 => by omega⟩

theorem witness_NoDataCharacterByParameter :
    (lengthOk (withInput [0x2D]) ∧ (withInput [0x2D]).cfg.nodataIsZero = false
      ∧ scannedChars (withInput [0x2D]).ibuf 1 = [])
    ∧ (lengthOk (withInput [0x35, 0x2D]) ∧ scannedChars (withInput [0x35, 0x2D]).ibuf 2 = [0x35]
      ∧ chkDec 0x35 = some 5)
    ∧ (lengthOk (withInputLegacy [0x2D]) ∧ (withInputLegacy [0x2D]).cfg.nodataIsZero = true
      ∧ scannedChars (withInputLegacy [0x2D]).ibuf 1 = [])
    ∧ (lengthOk (withInputLegacy [0x30]) ∧ scannedChars (withInputLegacy [0x30]).ibuf 1 = [0x30]
      ∧ chkDec 0x30 = some 0) := by decide

theorem witness_NoCheckSymbolOnlyOnHyphensUnderLegacy :
    (lengthOk (withInputLegacy [0x2D, 0x2D]) ∧ (withInputLegacy [0x2D, 0x2D]).cfg.nodataIsZero = true
      ∧ scannedChars (withInputLegacy [0x2D, 0x2D]).ibuf 2 = [])
    ∧ (after (.dec true) (withInputLegacy [0x2D, 0x2D])).ecause = 4 := by decide

theorem witness_CheckMismatchReportsBothValues :
    lengthOk (withInput [0x37, 0x5A, 0x2A]) ∧ ([31, 7] : List (BitVec 5)) ≠ []
    ∧ scannedChars (withInput [0x37, 0x5A, 0x2A]).ibuf 3 = [0x2A, 0x5A, 0x37]
    ∧ chkDec 0x2A = some 32 ∧ decodesTo [0x5A, 0x37] [31, 7]
    ∧ number [31, 7] % 2 ^ 64 % 37 ≠ (32 : BitVec 6).toNat := by decide

theorem witness_DecDependsOnItsInputAlone :
    (withInput [0x37]).cfg = ({ withInput [0x37, 0x41] with ilen := 1, vin := 9 } : State).cfg
    ∧ (withInput [0x37]).ilen = ({ withInput [0x37, 0x41] with ilen := 1, vin := 9 } : State).ilen
    ∧ ∀ k, k < 1 → (withInput [0x37]).ibuf.read k
        = ({ withInput [0x37, 0x41] with ilen := 1, vin := 9 } : State).ibuf.read k := by decide

theorem witness_HyphensAreSkipped :
    (withInput [0x37, 0x55]).cfg = (withInput [0x2D, 0x37, 0x2D, 0x55, 0x2D]).cfg
    ∧ lengthOk (withInput [0x37, 0x55]) ∧ lengthOk (withInput [0x2D, 0x37, 0x2D, 0x55, 0x2D])
    ∧ scannedChars (withInput [0x37, 0x55]).ibuf 2
      = scannedChars (withInput [0x2D, 0x37, 0x2D, 0x55, 0x2D]).ibuf 5 := by decide

theorem witness_DecodeOfEncodeIsTheValue :
    14 ≤ (withInput [0x37, 0x5A, 0x7E]).cfg.lmax
    ∧ (withInput [0x37, 0x5A, 0x7E]).ilen = (after (.enc true false) (withValue 255 0)).olen
    ∧ ∀ k, k < 3 → (withInput [0x37, 0x5A, 0x7E]).ibuf.read k
        = (after (.enc true false) (withValue 255 0)).obuf.read (14 - 3 + k) := by decide

theorem witness_OperationDeliversAllOrNothing :
    statusOk (after (.dec false) State.reset).status = false
    ∧ statusErr (after (.dec false) State.reset).status ≠ 3
    ∧ statusErr (after (.dec false) State.reset).status ≠ 4
    ∧ (statusOk (after (.dec false) (withInput [0x37])).status = true
      ∧ (Instr.dec false).mnemonic = "DEC")
    ∧ (statusOk (after (.enc true false) State.reset).status = true
      ∧ (Instr.enc true false).mnemonic ≠ "DEC")
    ∧ statusOk (after (.encb true true) (withValue 255 14)).status = true
    ∧ statusOk (after (.dec true) (withInput [0x37, 0x5A, 0x7E])).status = true := by decide

theorem witness_OperationsFailOnlyAsListed : ¬ (decode 0x0A).legal = true := by decide

theorem witness_RetryGivesTheSameRecord :
    ({ State.reset with status := 0x22, vout := 7 } : State).vin = State.reset.vin
    ∧ ({ State.reset with status := 0x22, vout := 7 } : State).ibuf = State.reset.ibuf
    ∧ ({ State.reset with status := 0x22, vout := 7 } : State).dlen = State.reset.dlen
    ∧ ({ State.reset with status := 0x22, vout := 7 } : State).ilen = State.reset.ilen
    ∧ ({ State.reset with status := 0x22, vout := 7 } : State).cfg = State.reset.cfg := by decide

theorem witness_ReadReturnsTheStoredValue :
    (({ running with script := [.rd (.ibuf 31)] } : State).script = [.rd (.ibuf 31)]
      ∧ addressExists running.cfg (.ibuf 31) = true ∧ isResult (.ibuf 31) = false)
    ∧ (addressExists State.reset.cfg (.obuf 13) = true ∧ State.reset.busy = false) := by decide

theorem witness_OperandWriteTakesTheValue :
    (withInput [0x37]).busy = false ∧ 31 < (withInput [0x37]).cfg.lmax
    ∧ (withInput [0x37]).ibuf.wf = true := by decide

theorem witness_CommandWriteStartsAnOperation :
    (withInput [0x37]).busy = false ∧ isResult (.obuf 13) = true := by decide

theorem witness_WriteWhileBusyIsLost :
    running.busy = true ∧ 31 < running.cfg.lmax ∧ valueFits (.ibuf 31) 255 = true
    ∧ valueFits (.reg .vin) 0xFFFFFFFFFFFFFFFF = true ∧ valueFits (.reg .cmd) 255 = true := by decide

theorem witness_WriteToReadOnlyStateIsIgnored :
    valueFits (.reg .status) 255 = true ∧ valueFits (.reg .vout) 0xFFFFFFFFFFFFFFFF = true
    ∧ 13 < 14 ∧ valueFits (.obuf 13) 255 = true := by decide

theorem witness_BusyResultReadIsUnspecified :
    running.busy = true ∧ legalStatus running.status = true := by decide

theorem witness_OnlyListedAddressesAreServed :
    addressExists State.reset.cfg (.ibuf 32) = false ∧ addressExists State.reset.cfg (.obuf 14) = false
    ∧ 12 < 13 := by decide

theorem witness_ResetClearsTheBlock :
    ({ running with script := [.rst] } : State).script = .rst :: [] := by decide

theorem witness_WaitPollsUntilDone :
    ({ running with script := [.wait] } : State).script = .wait :: [] := by decide

theorem witness_EngineCompletesWithinTheSchedule :
    ({ running with script := [.wait, .rd (.reg .status)], turns := [.host, .host] } : State).busy = true
    ∧ .rst ∉ ({ running with script := [.wait, .rd (.reg .status)], turns := [.host, .host] } : State).script
    ∧ ∀ h ∈ ({ running with script := [.wait, .rd (.reg .status)], turns := [.host, .host] } : State).script,
        HostStep.plain running.cfg h = true := by decide

theorem witness_PlainProgramIsNeverRefused :
    ∀ h ∈ ([.wr (.reg .vin) 5, .wr (.ibuf 31) 255, .rst, .wait] : List HostStep),
      HostStep.plain Config.default h = true := by decide

theorem witness_StepKeepsTheShape :
    State.Shape running ∧ ∃ t, step running = .next t :=
  ⟨⟨by decide, by decide, by decide, by decide, by decide, by decide⟩, _, rfl⟩

theorem witness_StepKeepsTheRecordLegal :
    State.RecordLegal { State.reset with status := 0x0A, ecause := 2 }
    ∧ ∃ t, step { State.reset with status := 0x0A, ecause := 2, script := [.wr (.reg .vin) 5] }
        = .next t := by
  refine ⟨⟨fun h => absurd h (by decide), fun _ => .inl (.inl ⟨2, by decide, by decide⟩)⟩, _, rfl⟩

theorem witness_ResultsStayUntilTheNextCommand :
    (withInput [0x37]).busy = false ∧ ∃ t, step (withInput [0x37]) = .next t := ⟨by decide, _, rfl⟩

theorem witness_OperandsAreLatchedWhileBusy :
    (running.busy = true ∧ ∃ t, step running = .next t)
    ∧ (({ running with script := [.rst] } : State).busy = true
      ∧ ∃ t, step { running with script := [.rst] } = .next t)
    ∧ (({ running with script := [.rst], turns := [.host] } : State).busy = true
      ∧ ∃ t, step { running with script := [.rst], turns := [.host] } = .next t) :=
  ⟨⟨by decide, _, rfl⟩, ⟨by decide, _, rfl⟩, ⟨by decide, _, rfl⟩⟩

theorem witness_OnlyACommandWriteStartsAnOperation :
    State.reset.status = 0 ∧ ({ State.reset with script := [.wr (.reg .cmd) 4] } : State).busy = false
    ∧ (stepped { State.reset with script := [.wr (.reg .cmd) 4] }).busy = true := by decide

theorem witness_ParametersNeverChange : ∃ t, step running = .next t := ⟨_, rfl⟩

theorem witness_EncTransactionDeliversTheString :
    ({ State.reset with script := HostStmt.expand (.enc true true 255), turns := [.host] } : State).busy
      = false
    ∧ ¬ (true = true ∧ (255 : Word).getLsbD 63 = true) := by decide

theorem witness_DecTransactionDecodesTheString :
    ({ State.reset with script := HostStmt.expand (.dec true [0x37, 0x5A, 0x7E]) } : State).busy = false
    ∧ State.reset.ibuf.wf = true ∧ ([0x37, 0x5A, 0x7E] : List Byte).length ≤ State.reset.cfg.lmax
    ∧ State.reset.cfg.lmax ≤ 255 := by decide

theorem witness_CopyOutMovesTheString :
    (after (.enc true false) (withValue 0xFFFFFFFFFFFFFFFF 0)).busy = false
    ∧ (after (.enc true false) (withValue 0xFFFFFFFFFFFFFFFF 0)).ibuf.wf = true
    ∧ (after (.enc true false) (withValue 0xFFFFFFFFFFFFFFFF 0)).olen.toNat ≤ 14
    ∧ 14 ≤ (after (.enc true false) (withValue 0xFFFFFFFFFFFFFFFF 0)).cfg.lmax := by decide

end Sys2Proof.Tests
end

section
/-! One rule per HOST access, derived from `hostStep` once: a read, a write and the reset as the next
item of HOST's program, and which writes change nothing (10_state.md R40 to R44, R47). -/

namespace Sys2Proof.Machine

/-! ### Reads -/

theorem hostStep_rd {s : State} {a : HostAddr} {rest : List HostStep} (hs : s.script = .rd a :: rest)
    (he : addressExists s.cfg a = true) :
    hostStep s = .next ((s.hostRead a).withScript rest) := by
  simp [hostStep, hs, readThen, he]

/-- A read that is not one of R45's unspecified ones gives HOST the stored value and draws nothing. -/
theorem hostRead_specified {s : State} {a : HostAddr} (h : readIsUnspecified s a = false) :
    s.hostRead a = { s with seen := (a, storedValue s a) :: s.seen } := by
  simp [State.hostRead, readValue, h]

theorem readIsUnspecified_eq_false_iff {s : State} {a : HostAddr} :
    readIsUnspecified s a = false ↔ s.busy = false ∨ isResult a = false :=
  Bool.and_eq_false_iff

theorem isResult_eq_false_iff (a : HostAddr) :
    isResult a = false ↔
      (a ∈ [.reg .cmd, .reg .status, .reg .vin, .reg .dlen, .reg .ilen] ∨ ∃ i, a = .ibuf i) := by
  cases a with
  | reg r => cases r <;> simp [isResult]
  | ibuf i => simp [isResult]
  | obuf i => simp [isResult]

/-! ### Writes -/

/-- A write neither reads nor changes HOST's program. -/
theorem hostWrite_withScript (s : State) (p : List HostStep) (a : HostAddr) (v : Word) :
    (s.withScript p).hostWrite a v = (s.hostWrite a v).withScript p := by
  cases hb : s.busy with
  | true => rw [hostWrite_busy hb, hostWrite_busy (by exact hb)]
  | false =>
    rw [hostWrite_idle hb, hostWrite_idle (by exact hb)]
    cases a with
    | reg r => cases r <;> rfl
    | ibuf i => rfl
    | obuf i => rfl

theorem hostStep_wr {s : State} {a : HostAddr} {v : Word} (rest : List HostStep)
    (he : addressExists s.cfg a = true) (hv : valueFits a v = true) :
    hostStep { s with script := .wr a v :: rest } = .next ((s.hostWrite a v).withScript rest) := by
  calc hostStep (s.withScript (.wr a v :: rest))
      = .next (((s.withScript (.wr a v :: rest)).hostWrite a v).withScript rest) := by
        simp [hostStep, writeThen, he, hv]
    _ = .next ((s.hostWrite a v).withScript rest) := by rw [hostWrite_withScript]; rfl

theorem hostStep_wr_idle {s : State} {a : HostAddr} {v : Word} (rest : List HostStep)
    (hb : s.busy = false) (he : addressExists s.cfg a = true) (hv : valueFits a v = true) :
    hostStep { s with script := .wr a v :: rest } = .next ((s.idleWrite v a).withScript rest) := by
  rw [hostStep_wr rest he hv, hostWrite_idle hb]

/-- A write that changes nothing of the block only uses up the item of HOST's program. -/
theorem hostStep_wr_ignored {s : State} {a : HostAddr} {v : Word} (rest : List HostStep)
    (he : addressExists s.cfg a = true) (hv : valueFits a v = true) (hw : s.hostWrite a v = s) :
    hostStep { s with script := .wr a v :: rest } = .next { s with script := rest } := by
  rw [hostStep_wr rest he hv, hw]
  rfl

theorem valueFits_word {a : HostAddr} (h : elementWidth a = 64) (v : Word) : valueFits a v = true := by
  rw [valueFits, h]
  exact decide_eq_true v.isLt

/-- A write leaves the state alone where an idle one does: a busy one changes nothing anyway. -/
theorem hostWrite_of_idleWrite {s : State} {a : HostAddr} {v : Word} (h : s.idleWrite v a = s) :
    s.hostWrite a v = s := by
  rw [State.hostWrite, h, ite_self]

theorem hostWrite_readOnly {a : HostAddr} (s : State) (v : Word)
    (ha : a ∈ [.reg .status, .reg .vout, .reg .ostart, .reg .olen, .reg .epos, .reg .echr,
      .reg .ckcalc, .reg .cksym, .reg .ecause] ∨ ∃ i, i < 14 ∧ a = .obuf i) :
    s.hostWrite a v = s := by
  apply hostWrite_of_idleWrite
  rcases idleWrite_cases s v a with ⟨rfl, -⟩ | ⟨rfl, -⟩ | ⟨rfl, -⟩ | ⟨rfl, -⟩ | ⟨i, rfl, -⟩ | h
  · simp at ha
  · simp at ha
  · simp at ha
  · simp at ha
  · simp at ha
  · exact h

/-! ### The reset -/

theorem hostStep_rst {s : State} {rest : List HostStep} (hs : s.script = .rst :: rest) :
    hostStep s = .next (s.blockReset.withScript rest) := by
  simp [hostStep, hs]

/-- The block as R47 leaves it: no operation runs, every register and every buffer slot is 0. -/
def State.Cleared (s : State) : Prop :=
  s.busy = false
  ∧ s.cmd = 0 ∧ s.status = 0 ∧ s.vin = 0 ∧ s.dlen = 0 ∧ s.ilen = 0 ∧ s.vout = 0 ∧ s.ostart = 0
  ∧ s.olen = 0 ∧ s.epos = 0 ∧ s.echr = 0 ∧ s.ckcalc = 0 ∧ s.cksym = 0 ∧ s.ecause = 0
  ∧ (∀ i, s.ibuf.read i = 0) ∧ ∀ i, s.obuf.read i = 0

theorem cleared_blockReset (s : State) (p : List HostStep) : (s.blockReset.withScript p).Cleared := by
  simp [State.Cleared]

theorem cleared_reset : State.reset.Cleared := cleared_blockReset State.reset []

end Sys2Proof.Machine
end

section
/-! The obligations of 10_state.md R40 to R44 and R47, each from the rule of its HOST access. -/

namespace Sys2Proof.Machine

/-- Settles O37: a read that is not unspecified gives the stored value, which is the named element's by
the definition's own cases. -/
theorem readReturnsTheStoredValue : Obligations.ReadReturnsTheStoredValue := by
  unfold Obligations.ReadReturnsTheStoredValue
  refine ⟨fun s a rest hs he hr => ?_, isResult_eq_false_iff, fun s => ?_⟩
  · rw [hostStep_rd hs he, hostRead_specified (readIsUnspecified_eq_false_iff.mpr hr)]
    rfl
  · simp [storedValue]

/-- Settles O38: an idle write is stored whole in its register, and in IBUF the laws of one buffer say
what each slot then reads. -/
theorem operandWriteTakesTheValue : Obligations.OperandWriteTakesTheValue := by
  unfold Obligations.OperandWriteTakesTheValue
  intro s rest hb
  refine ⟨fun v => ?_, fun b => ?_, fun b => ?_, fun i b hi hw => ?_⟩
  · rw [hostStep_wr_idle rest hb rfl (valueFits_word rfl v)]
    rfl
  · rw [hostStep_wr_idle rest hb rfl (valueFits_byte rfl b), State.idleWrite, setWidth_byte]
    rfl
  · rw [hostStep_wr_idle rest hb rfl (valueFits_byte rfl b), State.idleWrite, setWidth_byte]
    rfl
  · refine ⟨s.ibuf.write i b, ?_, Memory.write_wf hw, Memory.read_write_same hw,
      fun j hj => Memory.read_write_ne hj⟩
    rw [hostStep_wr_idle (a := .ibuf i) rest hb (decide_eq_true hi) (valueFits_byte rfl b),
      State.idleWrite, setWidth_byte]
    rfl

/-- Settles O39: an idle write of CMD starts the operation, and BUSY = 1 makes every result read
unspecified. -/
theorem commandWriteStartsAnOperation : Obligations.CommandWriteStartsAnOperation := by
  unfold Obligations.CommandWriteStartsAnOperation
  intro s c rest hb
  have hbusy : ((s.startCommand c).withScript rest).busy = true := by simp
  refine ⟨(s.startCommand c).withScript rest, ?_, rfl, hbusy, fun a ha => ?_⟩
  · rw [hostStep_wr_idle rest hb rfl (valueFits_byte rfl c), State.idleWrite, setWidth_byte]
  · rw [readIsUnspecified, hbusy, ha, Bool.and_self]

/-- Settles O40: a write while BUSY = 1 changes nothing, and each address named is one HOST can present. -/
theorem writeWhileBusyIsLost : Obligations.WriteWhileBusyIsLost := by
  unfold Obligations.WriteWhileBusyIsLost
  intro s a v rest hb ha hv
  have he : addressExists s.cfg a = true := by
    cases a with
    | reg r => rfl
    | ibuf i => simpa [addressExists] using ha
    | obuf i => simp at ha
  exact hostStep_wr_ignored rest he hv (hostWrite_busy hb a v)

/-- Settles O41: no write changes read-only state, busy or not, and each address named is one HOST can
present. -/
theorem writeToReadOnlyStateIsIgnored : Obligations.WriteToReadOnlyStateIsIgnored := by
  unfold Obligations.WriteToReadOnlyStateIsIgnored
  intro s a v rest ha hv
  have he : addressExists s.cfg a = true := by
    cases a with
    | reg r => rfl
    | ibuf i => simp at ha
    | obuf i => simpa [addressExists] using ha
  exact hostStep_wr_ignored rest he hv (hostWrite_readOnly s v ha)

/-- Settles O44: the step `rst` takes leaves a cleared block, and `State.reset` is one. -/
theorem resetClearsTheBlock : Obligations.ResetClearsTheBlock := by
  unfold Obligations.ResetClearsTheBlock
  exact ⟨fun s rest hs => ⟨_, hostStep_rst hs, cleared_blockReset s rest⟩, cleared_reset⟩

end Sys2Proof.Machine
end

section
/-! The addresses of 20_memory.md R62: which ones HOST can present, and the refusal of every other. -/

namespace Sys2Proof.Machine

theorem addressExists_iff (cfg : Config) (a : HostAddr) :
    addressExists cfg a = true ↔
      ((∃ r, a = .reg r) ∨ (∃ i, i < cfg.lmax ∧ a = .ibuf i) ∨ ∃ i, i < 14 ∧ a = .obuf i) := by
  cases a with
  | reg r => simp [addressExists]
  | ibuf i => simp [addressExists]
  | obuf i => simp [addressExists]

theorem regNumber_lt (r : Reg) : regNumber r < 13 := by
  cases r <;> decide

/-- Every number of R62's REG:0 to REG:12 is some register's. -/
theorem exists_regNumber_eq : ∀ n, n < 13 → ∃ r, regNumber r = n
  | 0, _ => ⟨.cmd, rfl⟩
  | 1, _ => ⟨.status, rfl⟩
  | 2, _ => ⟨.vin, rfl⟩
  | 3, _ => ⟨.dlen, rfl⟩
  | 4, _ => ⟨.ilen, rfl⟩
  | 5, _ => ⟨.vout, rfl⟩
  | 6, _ => ⟨.ostart, rfl⟩
  | 7, _ => ⟨.olen, rfl⟩
  | 8, _ => ⟨.epos, rfl⟩
  | 9, _ => ⟨.echr, rfl⟩
  | 10, _ => ⟨.ckcalc, rfl⟩
  | 11, _ => ⟨.cksym, rfl⟩
  | 12, _ => ⟨.ecause, rfl⟩
  | n + 13, h => absurd h (by omega)

theorem hostStep_rd_unmapped {s : State} {a : HostAddr} {rest : List HostStep}
    (hs : s.script = .rd a :: rest) (he : addressExists s.cfg a = false) :
    hostStep s = .refused (.unmappedAddress a) := by
  simp [hostStep, hs, readThen, he]

/-- The address is looked at before the value: an unlisted one is refused whatever is written. -/
theorem hostStep_wr_unmapped {s : State} {a : HostAddr} {v : Word} {rest : List HostStep}
    (hs : s.script = .wr a v :: rest) (he : addressExists s.cfg a = false) :
    hostStep s = .refused (.unmappedAddress a) := by
  simp [hostStep, hs, writeThen, he]

/-- Settles O43: the listed addresses by their three spaces, the register numbers both ways, and the
refusal of a read and of a write elsewhere. -/
theorem onlyListedAddressesAreServed : Obligations.OnlyListedAddressesAreServed := by
  unfold Obligations.OnlyListedAddressesAreServed
  exact ⟨addressExists_iff, exists_regNumber_eq, regNumber_lt,
    fun _ _ _ _ he => ⟨hostStep_rd_unmapped rfl he, hostStep_wr_unmapped rfl he⟩⟩

end Sys2Proof.Machine
end

section
/-! The command decoder: its branches by the fields of 30_encoding.md R100, that a byte is the encoding of
the operation it decodes to, and the opcode table's rows in terms of that operation (R102, R103). -/

namespace Sys2Proof

/-! ### The decoder's branches -/

/-- The decoder's first four tests together are R103's test of bits 7:4. -/
theorem highNibble_eq_zero_iff (c : Byte) :
    c >>> 4 = 0 ↔
      c.getLsbD 7 = false ∧ c.getLsbD 6 = false ∧ c.getLsbD 5 = false ∧ c.getLsbD 4 = false := by
  revert c
  decide

theorem opField_eq_iff (c : Byte) (op : BitVec 2) : opField c = op ↔ c &&& 3 = op.setWidth 8 := by
  revert c op
  decide

theorem decode_of_reservedBits {c : Byte} (h : c >>> 4 ≠ 0) :
    decode c = .illegalReservedB7 c ∨ decode c = .illegalReservedB6 c
      ∨ decode c = .illegalReservedB5 c ∨ decode c = .illegalReservedB4 c := by
  unfold decode
  split_ifs with h7 h6 h5 h4
  · exact .inl rfl
  · exact .inr (.inl rfl)
  · exact .inr (.inr (.inl rfl))
  · exact .inr (.inr (.inr rfl))
  all_goals
    have hzero : c >>> 4 = 0 := (highNibble_eq_zero_iff c).mpr
      ⟨eq_false_of_ne_true h7, eq_false_of_ne_true h6, eq_false_of_ne_true h5, eq_false_of_ne_true h4⟩
    exact absurd hzero h

/-- With bits 7:4 zero OP and SG select (30_encoding.md R104). -/
theorem decode_of_highNibble_zero {c : Byte} (h : c >>> 4 = 0) :
    decode c =
      if opField c = 3 then .illegalReservedOp c
      else if opField c = 2 ∧ sgField c = true then .illegalDecSg c
      else if opField c = 0 then .enc (csField c) (sgField c)
      else if opField c = 1 then .encb (csField c) (sgField c)
      else .dec (csField c) := by
  obtain ⟨h7, h6, h5, h4⟩ := (highNibble_eq_zero_iff c).mp h
  simp only [decode, h7, h6, h5, h4, Bool.false_eq_true, if_false]

theorem decode_of_reservedOp {c : Byte} (h : c >>> 4 = 0) (hop : c &&& 3 = 3) :
    decode c = .illegalReservedOp c := by
  rw [decode_of_highNibble_zero h, if_pos ((opField_eq_iff c 3).mpr hop)]

theorem decode_of_decSg {c : Byte} (h : c >>> 4 = 0) (hop : c &&& 3 = 2) (hsg : c.getLsbD 3 = true) :
    decode c = .illegalDecSg c := by
  have hop2 : opField c = 2 := (opField_eq_iff c 2).mpr hop
  rw [decode_of_highNibble_zero h, if_neg (by simp [hop2]), if_pos ⟨hop2, hsg⟩]

/-! ### The byte of the decoded operation -/

theorem commandByte_fields {c : Byte} (h : c >>> 4 = 0) :
    commandByte (opField c) (csField c) (sgField c) = c := by
  revert c
  decide

/-- A legal operation's byte is put together from the fields the decoder took it apart into; an illegal one
carries its byte. -/
theorem encode_decode (c : Byte) : encode (decode c) = c := by
  by_cases h : c >>> 4 = 0
  · have hfields := commandByte_fields h
    rw [decode_of_highNibble_zero h]
    split_ifs with hop3 hdecSg hop0 hop1
    · rfl
    · rfl
    · rwa [hop0] at hfields
    · rwa [hop1] at hfields
    · have hop2 : opField c = 2 := by bv_omega
      have hsg : sgField c = false := by simpa [hop2] using hdecSg
      rwa [hop2, hsg] at hfields
  · rcases decode_of_reservedBits h with hd | hd | hd | hd
    all_goals rw [hd]; rfl

/-- The decoder's tests put every one of the 256 bytes into the row it answers. -/
theorem decode_wellFormed (c : Byte) : (decode c).wellFormed = true := by
  revert c
  decide

/-! ### The rows of the opcode table -/

/-- The family RowMatch, for every operation. -/
theorem rowMatch : ∀ i : Instr, Laws.RowMatch.Statement i
  | .enc cs sg => Laws.RowMatch.enc cs sg
  | .encb cs sg => Laws.RowMatch.encb cs sg
  | .dec cs => Laws.RowMatch.dec cs
  | .illegalReservedOp c => Laws.RowMatch.illegalReservedOp c
  | .illegalDecSg c => Laws.RowMatch.illegalDecSg c
  | .illegalReservedB7 c => Laws.RowMatch.illegalReservedB7 c
  | .illegalReservedB6 c => Laws.RowMatch.illegalReservedB6 c
  | .illegalReservedB5 c => Laws.RowMatch.illegalReservedB5 c
  | .illegalReservedB4 c => Laws.RowMatch.illegalReservedB4 c

theorem matchingRows_eq (c : Byte) :
    (opcodeTable.filter fun r => r.holds c).map (·.mnemonic) = [(decode c).mnemonic] := by
  have h := rowMatch (decode c) (decode_wellFormed c)
  rwa [encode_decode] at h

theorem opcodeTable_mnemonic_nodup : (opcodeTable.map (·.mnemonic)).Nodup := by
  decide

/-- A byte lies in a row exactly when it decodes to an operation of that row's mnemonic. -/
theorem mask_eq_value_iff {mnemonic : String} {mask value : Byte}
    (hr : ⟨mnemonic, mask, value⟩ ∈ opcodeTable) (c : Byte) :
    c &&& mask = value ↔ (decode c).mnemonic = mnemonic := by
  have hholds : c &&& mask = value ↔ OpcodeRow.holds ⟨mnemonic, mask, value⟩ c = true := beq_iff_eq.symm
  have hname : (decode c).mnemonic = mnemonic ↔
      mnemonic ∈ (opcodeTable.filter fun r => r.holds c).map (·.mnemonic) := by
    rw [matchingRows_eq, List.mem_singleton, eq_comm]
  rw [hholds, hname, List.mem_map]
  constructor
  · intro h
    exact ⟨_, List.mem_filter.mpr ⟨hr, h⟩, rfl⟩
  · rintro ⟨r, hmem, hr_name⟩
    obtain ⟨hr', h⟩ := List.mem_filter.mp hmem
    rwa [List.inj_on_of_nodup_map opcodeTable_mnemonic_nodup hr' hr hr_name] at h

theorem Instr.mnemonic_eq_enc_iff (i : Instr) : i.mnemonic = "ENC" ↔ ∃ cs sg, i = .enc cs sg := by
  cases i <;> simp [Instr.mnemonic]

theorem Instr.mnemonic_eq_encb_iff (i : Instr) : i.mnemonic = "ENCB" ↔ ∃ cs sg, i = .encb cs sg := by
  cases i <;> simp [Instr.mnemonic]

theorem Instr.mnemonic_eq_dec_iff (i : Instr) : i.mnemonic = "DEC" ↔ ∃ cs, i = .dec cs := by
  cases i <;> simp [Instr.mnemonic]

/-! ### The ten legal bytes -/

/-- The bytes of R102's table, in its order. -/
def legalBytes : List Byte := [0x00, 0x04, 0x08, 0x0C, 0x01, 0x05, 0x09, 0x0D, 0x02, 0x06]

theorem encode_mem_legalBytes {i : Instr} (h : i.legal = true) : encode i ∈ legalBytes := by
  cases i with
  | enc cs sg => revert cs sg; decide
  | encb cs sg => revert cs sg; decide
  | dec cs => revert cs; decide
  | illegalReservedOp c | illegalDecSg c | illegalReservedB7 c | illegalReservedB6 c
  | illegalReservedB5 c | illegalReservedB4 c => simp [Instr.legal] at h

theorem legal_of_mem_legalBytes : ∀ c ∈ legalBytes, (decode c).legal = true := by
  decide

theorem legal_decode_iff (c : Byte) : (decode c).legal = true ↔ c ∈ legalBytes := by
  constructor
  · intro h
    have hmem := encode_mem_legalBytes h
    rwa [encode_decode] at hmem
  · exact legal_of_mem_legalBytes c

/-- Settles O1: a match and mask pair is a row of the opcode table, so it selects the operations of the row's
mnemonic, and a legal operation's byte is one of the ten. -/
theorem tenBytesSelectTheLegalOperations : Obligations.TenBytesSelectTheLegalOperations := by
  unfold Obligations.TenBytesSelectTheLegalOperations
  refine ⟨by decide, fun c => ?_, fun c => ?_, fun c => ?_, legal_decode_iff⟩
  · exact (mask_eq_value_iff (mnemonic := "ENC") (by decide) c).trans (decode c).mnemonic_eq_enc_iff
  · exact (mask_eq_value_iff (mnemonic := "ENCB") (by decide) c).trans (decode c).mnemonic_eq_encb_iff
  · exact (mask_eq_value_iff (mnemonic := "DEC") (by decide) c).trans (decode c).mnemonic_eq_dec_iff

end Sys2Proof
end

section
/-! The illegal command bytes (30_encoding.md R103): what each class completes with. -/

namespace Sys2Proof.Machine

theorem exec_of_reservedOp {i : Instr} {s : State} (h : recordOf i s = raise .reservedOp) :
    exec i s = .next (s.complete (failedRecord 0x2A 9 0 0 0 0)) := by
  rw [exec_eq, h, raise_reservedOp]

theorem exec_of_reservedBits {i : Instr} {s : State} (h : recordOf i s = raise .reservedBits) :
    exec i s = .next (s.complete (failedRecord 0x2A 10 0 0 0 0)) := by
  rw [exec_eq, h, raise_reservedBits]

/-- The start by a CMD write is that of any byte. -/
theorem hostStep_commandWrite {s : State} (c : Byte) (rest : List HostStep) (hb : s.busy = false) :
    hostStep { s with script := .wr (.reg .cmd) (c.setWidth 64) :: rest }
      = .next { s with cmd := c, status := 0x01, script := rest } := by
  obtain ⟨t, hstep, rfl, -⟩ := commandWriteStartsAnOperation s c rest hb
  exact hstep

/-- Settles O2: the classes by the decoder's branches, the records by the cause each illegal operation
raises, and the rows by the mnemonic of the operation. -/
theorem illegalCommandsCompleteByClass : Obligations.IllegalCommandsCompleteByClass := by
  unfold Obligations.IllegalCommandsCompleteByClass
  refine ⟨fun c => decode_of_reservedBits, fun c => decode_of_reservedOp, fun c => decode_of_decSg,
    fun s c => ?_, fun s c rest => hostStep_commandWrite c rest, matchingRows_eq⟩
  exact ⟨exec_of_reservedOp rfl, exec_of_reservedBits rfl, exec_of_reservedBits rfl,
    exec_of_reservedBits rfl, exec_of_reservedBits rfl, exec_of_reservedBits rfl⟩

end Sys2Proof.Machine
end

section
/-! The symbol tables, code by code (30_encoding.md R91 to R94): what each decode table makes of the codes
of ENC37, and which codes are valid in it. -/

namespace Sys2Proof.Machine

/-! ### The values of the listed codes -/

/-- Symbol by symbol in the order of the values, whatever the tables are. -/
theorem map_decode_map_encode {β : Type} {dec : Byte → Option β} {enc : Nat → Byte} {value : Nat → β}
    {n : Nat} (h : ∀ v, v < n → dec (enc v) = some (value v)) :
    ((List.range n).map enc).map dec = (List.range n).map fun v => some (value v) := by
  rw [List.map_map]
  exact List.map_congr_left fun v hv => h v (List.mem_range.mp hv)

theorem dataDec_encSymbol : ∀ v, v < 32 → dataDec (encSymbol v) = some (BitVec.ofNat 5 v) := by
  decide

/-- The values from 10 on are the letters; 0x20 is the distance from upper to lower case (R90). -/
theorem dataDec_encSymbol_lowerCase :
    ∀ v, 10 ≤ v → v < 32 → dataDec (encSymbol v + 0x20) = some (BitVec.ofNat 5 v) := by
  decide

theorem chkDec_encSymbol : ∀ v, v < 37 → chkDec (encSymbol v) = some (BitVec.ofNat 6 v) := by
  decide

theorem dataDec_letterU : dataDec 0x55 = none := by
  decide

/-- U stands for no data value: DATADEC would give that value back. -/
theorem encSymbol_ne_letterU {v : Nat} (hv : v < 32) : encSymbol v ≠ 0x55 := by
  intro h
  have hsome := dataDec_encSymbol v hv
  rw [h, dataDec_letterU] at hsome
  cases hsome

/-! ### The valid codes of a table -/

/-- A decode table whose listed codes are distinct is valid for as many of the 256 codes as it has
entries. -/
theorem length_validCodes {β : Type} {table : List (Byte × β)} (h : (table.map Prod.fst).Nodup) :
    ((List.range 256).filter fun c => (table.lookup (BitVec.ofNat 8 c)).isSome).length
      = table.length := by
  have hcodes : ((List.range 256).map (BitVec.ofNat 8)).Nodup :=
    List.nodup_range.map_on fun a ha b hb hab => by
      rw [List.mem_range] at ha hb
      bv_omega
  have hperm : (((List.range 256).map (BitVec.ofNat 8)).filter fun c => (table.lookup c).isSome).Perm
      (table.map Prod.fst) := by
    refine (List.perm_ext_iff_of_nodup (hcodes.filter _) h).mpr fun c => ?_
    have hc : c ∈ (List.range 256).map (BitVec.ofNat 8) :=
      List.mem_map.mpr ⟨c.toNat, List.mem_range.mpr c.isLt, BitVec.eq_of_toNat_eq (by simp)⟩
    simp [List.mem_filter, hc, List.lookup_isSome_iff]
  calc _ = (((List.range 256).map (BitVec.ofNat 8)).filter fun c => (table.lookup c).isSome).length := by
        rw [List.filter_map, List.length_map]; rfl
    _ = (table.map Prod.fst).length := hperm.length_eq
    _ = table.length := List.length_map _

theorem dataDec_codes_nodup : ((dataUpper ++ dataLower).map Prod.fst).Nodup := by
  decide

theorem chkRows_codes_nodup : (chkRows.map Prod.fst).Nodup := by
  decide

theorem dataDec_codes_lt : ∀ p ∈ dataUpper ++ dataLower, p.1.toNat < 0x80 := by
  have hall : ((dataUpper ++ dataLower).all fun p => decide (p.1.toNat < 0x80)) = true := by decide
  exact fun p hp => of_decide_eq_true (List.all_eq_true.mp hall p hp)

theorem dataDec_of_high {c : Byte} (h : 0x80 ≤ c.toNat) : dataDec c = none := by
  rw [dataDec, List.lookup_eq_none_iff]
  refine fun p hp => bne_iff_ne.mpr ?_
  rintro rfl
  exact absurd (dataDec_codes_lt p hp) (by omega)

/-! ### The two obligations -/

/-- Settles O18: each list of codes is the encode table's symbols, in either case, so DATADEC's values on
them follow symbol by symbol; the count is that of the table's entries. -/
theorem relaxedTableFoldsCaseAndLookalikes : Obligations.RelaxedTableFoldsCaseAndLookalikes := by
  unfold Obligations.RelaxedTableFoldsCaseAndLookalikes
  refine ⟨?upper, ?lower, length_validCodes dataDec_codes_nodup, dataDec_encSymbol,
    dataDec_encSymbol_lowerCase, by decide, by decide, by decide, fun c => dataDec_of_high⟩
  case upper => exact map_decode_map_encode dataDec_encSymbol
  case lower =>
    exact map_decode_map_encode (enc := fun k => encSymbol (10 + k) + 0x20) (n := 22) fun k hk =>
      dataDec_encSymbol_lowerCase (10 + k) (by omega) (by omega)

/-- Settles O59: the encode table as listed, CHKDEC's values symbol by symbol and its number of entries, and
U outside the data symbols. -/
theorem symbolTablesHoldTheListedCodes : Obligations.SymbolTablesHoldTheListedCodes := by
  unfold Obligations.SymbolTablesHoldTheListedCodes
  exact ⟨by decide, map_decode_map_encode chkDec_encSymbol, length_validCodes chkRows_codes_nodup,
    fun v => encSymbol_ne_letterU, dataDec_letterU⟩

end Sys2Proof.Machine
end

section
/-! The groups of a value (40_arith_check.md R123, R127, R130): the bounds that pin their count, the number
they denote, and so what DEC makes of the string ENC writes for the value. -/

namespace Sys2Proof.Machine

/-! ### The number of groups -/

/-- A value fits in its own groups (30_encoding.md R96). -/
theorem toNat_lt_pow_groupCount (v : Word) : v.toNat < 32 ^ groupCount v := by
  by_cases h0 : v = 0
  · simp [h0]
  · calc v.toNat < 2 ^ bitLength v := by
          rw [bitLength, if_neg h0]
          exact Nat.lt_log2_self
      _ ≤ 2 ^ (5 * groupCount v) := by
          refine Nat.pow_le_pow_right (by omega) ?_
          rw [groupCount, if_neg h0]
          omega
      _ = 32 ^ groupCount v := Nat.pow_mul 2 5 _

/-- The number of groups is the smallest positive `n` with `v < 32 ^ n` (30_encoding.md R96). -/
theorem groupCount_le_iff {n : Nat} {v : Word} (hn : 1 ≤ n) : groupCount v ≤ n ↔ v.toNat < 32 ^ n :=
  ⟨fun h => (toNat_lt_pow_groupCount v).trans_le (Nat.pow_le_pow_right (by omega) h), groupCount_le hn⟩

theorem groupCount_eq_13_iff (v : Word) : groupCount v = 13 ↔ 2 ^ 60 ≤ v.toNat := by
  have h12 := groupCount_le_iff (v := v) (n := 12) (by omega)
  have h13 := groupCount_le_13 v
  omega

/-- A value other than 0 has no group to spare. -/
theorem pow_groupCount_pred_le {v : Word} (h : v ≠ 0) : 32 ^ (groupCount v - 1) ≤ v.toNat := by
  by_cases h1 : groupCount v = 1
  · have : v.toNat ≠ 0 := fun hv => h (BitVec.eq_of_toNat_eq hv)
    rw [h1, Nat.sub_self, Nat.pow_zero]
    omega
  · have hpos := groupCount_pos v
    rw [← not_lt, ← groupCount_le_iff (by omega)]
    omega

/-- Settles O13: the loop's stop index is 14 less the canonical string's length, and the bounds say that the
count is the smallest exponent of 32 above the value. -/
theorem groupCountIsTheNumberOfRounds : Obligations.GroupCountIsTheNumberOfRounds := by
  unfold Obligations.GroupCountIsTheNumberOfRounds
  intro v cs
  have hle := groupCount_le_13 v
  have hcs := Bool.toNat_le cs
  refine ⟨groupCount_pos v, hle, groupCount_eq_13_iff v, ?_, toNat_lt_pow_groupCount v,
    pow_groupCount_pred_le, ?_⟩
  · rintro rfl
    rfl
  · rw [(encodeCore_spec v cs).1, encodedString_length]
    omega

/-! ### The number the groups denote -/

theorem group_lt (v : Word) (j : Nat) : group v j < 32 := Nat.mod_lt _ (by omega)

/-- The values of the `n` lowest groups, `g_0` first. -/
def groupValues (v : Word) (n : Nat) : List (BitVec 5) :=
  (List.range n).map fun j => BitVec.ofNat 5 (group v j)

theorem groupValues_succ (v : Word) (n : Nat) :
    groupValues v (n + 1) = BitVec.ofNat 5 (lowGroup v) :: groupValues (shiftGroup v) n := by
  simp [groupValues, List.range_succ_eq_map, group_zero, group_shiftGroup]

theorem groupValues_groupCount_ne_nil (v : Word) : groupValues v (groupCount v) ≠ [] := by
  have := groupCount_pos v
  simp [groupValues]
  omega

/-- The lowest `n` groups denote the value modulo `32 ^ n` (40_arith_check.md R127). -/
theorem number_groupValues (v : Word) (n : Nat) : number (groupValues v n) = v.toNat % 32 ^ n := by
  induction n generalizing v with
  | zero => simp [groupValues, number, Nat.mod_one]
  | succ n ih =>
    have hlow : (BitVec.ofNat 5 (lowGroup v)).toNat = v.toNat % 32 := by simp [lowGroup_eq]
    rw [groupValues_succ, number, ih, hlow, shiftGroup_toNat, Nat.pow_succ', Nat.mod_mul]

theorem number_groupValues_groupCount (v : Word) : number (groupValues v (groupCount v)) = v.toNat := by
  rw [number_groupValues, Nat.mod_eq_of_lt (toNat_lt_pow_groupCount v)]

/-! ### The canonical string as DEC reads it -/

theorem reverse_dataString (v : Word) :
    (dataString v).reverse = (List.range (groupCount v)).map fun j => encSymbol (group v j) := by
  rw [dataString, ← List.map_reverse, List.reverse_reverse]

theorem reverse_encodedString_check (v : Word) :
    (encodedString v true).reverse = encSymbol (v.toNat % 37) :: (dataString v).reverse := by
  simp [encodedString]

/-- The data symbols, last one first, decode to the groups, lowest one first. -/
theorem decodesTo_reverse_dataString (v : Word) :
    decodesTo (dataString v).reverse (groupValues v (groupCount v)) := by
  rw [decodesTo, reverse_dataString, groupValues, List.map_map (g := some)]
  exact map_decode_map_encode fun j _ => dataDec_encSymbol _ (group_lt v j)

theorem ne_hyphen_of_mem_encodedString {v : Word} {cs : Bool} {c : Byte} (h : c ∈ encodedString v cs) :
    c ≠ hyphen := by
  rcases List.mem_append.mp h with hd | hck
  · obtain ⟨j, -, rfl⟩ := List.mem_map.mp hd
    exact encSymbol_ne_hyphen _ ((group_lt v j).trans (by omega))
  · cases cs with
    | false => cases hck
    | true =>
      rw [List.mem_singleton.mp hck]
      exact encSymbol_ne_hyphen _ (Nat.mod_lt _ (by omega))

/-- A string without hyphens is scanned as it stands, last character first (42_decode.md R175). -/
theorem scannedChars_of_read {ibuf : Memory} {str : List Byte}
    (hread : ∀ k (h : k < str.length), ibuf.read k = str[k]) (hstr : ∀ c ∈ str, c ≠ hyphen) :
    scannedChars ibuf str.length = str.reverse := by
  have hin : inputChars ibuf str.length = str :=
    List.ext_getElem (by simp [inputChars]) fun k _ h => by simpa [inputChars] using hread k h
  rw [scannedChars, hin, List.filter_eq_self]
  exact fun c hc => decide_eq_true (hstr c (List.mem_reverse.mp hc))

/-! ### The records of an encode and of a decode that are accepted -/

/-- ENC's record when the sign test lets the value through (41_encode.md R141). -/
theorem encRecord_of_not_negative {sg : Bool} {v : Word} (cs : Bool) (h : isNegative sg v = false) :
    encRecord cs sg v
      = encodedRecord (encodeCore v cs).1 (encodedString v cs).length (encodeCore v cs).2 := by
  rw [encRecord, h, if_neg Bool.false_ne_true, encodedLength_eq, succeedEncode_eq]

/-- DEC's record when every character is a data character (42_decode.md R190). -/
theorem recordOf_dec_data {s : State} {ds : List (BitVec 5)} (hl : lengthOk s)
    (hds : ds ≠ [] ∨ s.cfg.nodataIsZero = true)
    (hdec : decodesTo (scannedChars s.ibuf s.ilen.toNat) ds) :
    recordOf (.dec false) s
      = decodedRecord (BitVec.ofNat 64 (number ds)) (decide (2 ^ 64 ≤ number ds)) 0 := by
  rw [recordOf_dec hl, (scan_data rfl).mpr ⟨ds, hdec, rfl⟩]
  exact finishScan_data s.cfg ds hds

/-- DEC's record when the first character scanned is a check symbol and every other one a data character
(42_decode.md R188, R190). -/
theorem recordOf_dec_check {s : State} {ds : List (BitVec 5)} {c : Byte} {rest : List Byte} {v : BitVec 6}
    (hl : lengthOk s) (hds : ds ≠ [] ∨ s.cfg.nodataIsZero = true)
    (hscan : scannedChars s.ibuf s.ilen.toNat = c :: rest) (hchk : chkDec c = some v)
    (hdec : decodesTo rest ds) :
    recordOf (.dec true) s =
      if number ds % 2 ^ 64 % 37 = v.toNat then
        decodedRecord (BitVec.ofNat 64 (number ds)) (decide (2 ^ 64 ≤ number ds)) (v.setWidth 8)
      else failedRecord 0x22 8 0 0 (BitVec.ofNat 8 (number ds % 2 ^ 64 % 37)) (v.setWidth 8) := by
  rw [recordOf_dec hl, (scan_check rfl).mpr (.inr ⟨c, rest, v, ds, hscan, hchk, hdec, rfl⟩)]
  exact finishScan_check s.cfg ds v hds

/-- DEC on the canonical string of a value, under the same check symbol setting (40_arith_check.md R130). -/
theorem recordOf_dec_encodedString {u : State} {v : Word} {cs : Bool} (hl : lengthOk u)
    (hscan : scannedChars u.ibuf u.ilen.toNat = (encodedString v cs).reverse) :
    recordOf (.dec cs) u
      = decodedRecord v false (if cs = true then BitVec.ofNat 8 (v.toNat % 37) else 0) := by
  have hne := groupValues_groupCount_ne_nil v
  have hdec := decodesTo_reverse_dataString v
  have hovf : decide (2 ^ 64 ≤ v.toNat) = false := decide_eq_false (not_le.mpr v.isLt)
  cases cs with
  | false =>
    have hdata : encodedString v false = dataString v := List.append_nil _
    rw [hdata] at hscan
    rw [recordOf_dec_data hl (.inl hne) (hscan ▸ hdec), number_groupValues_groupCount,
      BitVec.ofNat_toNat, BitVec.setWidth_eq, hovf, if_neg Bool.false_ne_true]
  | true =>
    have hmod : v.toNat % 37 < 37 := Nat.mod_lt _ (by omega)
    have hck : (BitVec.ofNat 6 (v.toNat % 37)).toNat = v.toNat % 37 := by
      rw [BitVec.toNat_ofNat, Nat.mod_eq_of_lt (by omega)]
    have hwide : (BitVec.ofNat 6 (v.toNat % 37)).setWidth 8 = BitVec.ofNat 8 (v.toNat % 37) := by
      rw [← BitVec.ofNat_toNat, hck]
    rw [reverse_encodedString_check] at hscan
    rw [recordOf_dec_check hl (.inl hne) hscan (chkDec_encSymbol _ hmod) hdec,
      number_groupValues_groupCount, hck, Nat.mod_eq_of_lt v.isLt, if_pos rfl, hwide,
      BitVec.ofNat_toNat, BitVec.setWidth_eq, hovf, if_pos rfl]

/-- Settles O29: DEC scans the canonical string back from its end, whose symbols decode to the groups of the
value, and they denote the value. -/
theorem decodeOfEncodeIsTheValue : Obligations.DecodeOfEncodeIsTheValue := by
  unfold Obligations.DecodeOfEncodeIsTheValue
  intro cs s u hlmax
  obtain ⟨-, h14, hstr, -⟩ := encodeCore_spec s.vin cs
  have hpos := groupCount_pos s.vin
  have hlen := encodedString_length s.vin cs
  have holen : (BitVec.ofNat 8 (encodedString s.vin cs).length).toNat = (encodedString s.vin cs).length := by
    rw [BitVec.toNat_ofNat, Nat.mod_eq_of_lt (by omega)]
  have hrec : recordOf (.enc cs false) s = _ := encRecord_of_not_negative cs rfl
  refine ⟨_, exec_eq _ _, ?_⟩
  rw [State.complete_olen, State.complete_obuf, hrec]
  simp only [encodedRecord, holen]
  intro hilen hread
  have hulen : u.ilen.toNat = (encodedString s.vin cs).length := by rw [hilen, holen]
  have hscan : scannedChars u.ibuf u.ilen.toNat = (encodedString s.vin cs).reverse := by
    rw [hulen]
    exact scannedChars_of_read (fun k h => (hread k h).trans (hstr k h))
      fun c => ne_hyphen_of_mem_encodedString
  rw [exec_eq, recordOf_dec_encodedString ⟨by omega, by omega⟩ hscan]

end Sys2Proof.Machine
end

section
/-! One rule per outcome of an encode, derived from its completion record once (41_encode.md R141, R146,
R152): the sign test, then ENCB's size test, then the success with ENCODE_CORE's buffer. -/

namespace Sys2Proof.Machine

theorem exec_enc_of_negative {sg : Bool} {s : State} (cs : Bool)
    (h : sg = true ∧ s.vin.getLsbD 63 = true) :
    exec (.enc cs sg) s = .next (s.complete (failedRecord 0x0A 1 0 0 0 0)) := by
  rw [exec_eq, recordOf, encRecord, if_pos (isNegative_iff.mpr h), raise_negValue]

theorem exec_encb_of_negative {sg : Bool} {s : State} (cs : Bool)
    (h : sg = true ∧ s.vin.getLsbD 63 = true) :
    exec (.encb cs sg) s = .next (s.complete (failedRecord 0x0A 1 0 0 0 0)) := by
  rw [exec_eq, recordOf, encbRecord, if_pos (isNegative_iff.mpr h), raise_negValue]

theorem exec_encb_of_small {sg : Bool} {s : State} (cs : Bool)
    (h : ¬ (sg = true ∧ s.vin.getLsbD 63 = true)) (hd : s.dlen.toNat < 14) :
    exec (.encb cs sg) s = .next (s.complete (failedRecord 0x12 5 0 0 0 0)) := by
  rw [exec_eq, recordOf, encbRecord, if_neg (isNegative_iff.not.mpr h), if_pos (destTooSmall_iff.mpr hd),
    raise_destTooSmall]

theorem exec_enc_of_not_negative {sg : Bool} {s : State} (cs : Bool)
    (h : ¬ (sg = true ∧ s.vin.getLsbD 63 = true)) :
    exec (.enc cs sg) s = .next (s.complete (encodedRecord (encodeCore s.vin cs).1
      (encodedString s.vin cs).length (14 - (encodedString s.vin cs).length))) := by
  rw [exec_eq, recordOf, encRecord_of_not_negative cs (Bool.eq_false_iff.mpr (isNegative_iff.not.mpr h)),
    (encodeCore_spec s.vin cs).1]

theorem exec_encb_of_fits {sg : Bool} {s : State} (cs : Bool)
    (h : ¬ (sg = true ∧ s.vin.getLsbD 63 = true)) (hd : 14 ≤ s.dlen.toNat) :
    exec (.encb cs sg) s = .next (s.complete (encodedRecord (encodeCore s.vin cs).1
      (encodedString s.vin cs).length (s.dlen.toNat - (encodedString s.vin cs).length))) := by
  rw [exec_eq, recordOf, encbRecord, if_neg (isNegative_iff.not.mpr h),
    if_neg (destTooSmall_iff.not.mpr (not_lt.mpr hd)), encodedLength_eq, succeedEncode_eq]

/-- Two states on which an operation has one record get the same results from it, and each keeps its
operands. -/
theorem exec_of_recordOf_eq {i : Instr} {s s' : State} (h : recordOf i s = recordOf i s') :
    ∃ t t', exec i s = .next t ∧ exec i s' = .next t' ∧ t.results = t'.results
      ∧ t.cmd = s.cmd ∧ t.vin = s.vin ∧ t.dlen = s.dlen ∧ t.ilen = s.ilen ∧ t.ibuf = s.ibuf :=
  ⟨_, _, exec_eq i s, exec_eq i s', h, rfl, rfl, rfl, rfl, rfl⟩

end Sys2Proof.Machine
end

section
/-! The obligations of 41_encode.md R141 to R152, each from the rules of the encode's outcomes and the
canonical string its buffer holds. -/

namespace Sys2Proof.Machine

/-! ### What an encode delivers -/

/-- Settles O8: the sign test decides the outcome, and ENCODE_CORE's buffer holds the canonical string. -/
theorem encWritesTheCanonicalString : Obligations.EncWritesTheCanonicalString := by
  unfold Obligations.EncWritesTheCanonicalString
  intro cs sg s
  exact ⟨exec_enc_of_negative cs,
    fun h => ⟨_, (encodeCore_spec s.vin cs).2, exec_enc_of_not_negative cs h⟩⟩

/-- With DLEN = 14 the size test passes and OSTART counts from the same end, so ENCB is ENC (R146). -/
theorem exec_encb_eq_enc {s : State} (cs sg : Bool) (hd : s.dlen.toNat = 14) :
    exec (.encb cs sg) s = exec (.enc cs sg) s := by
  by_cases h : sg = true ∧ s.vin.getLsbD 63 = true
  · rw [exec_encb_of_negative cs h, exec_enc_of_negative cs h]
  · rw [exec_encb_of_fits cs h hd.ge, exec_enc_of_not_negative cs h, hd]

/-- Settles O9: the three outcomes of ENCB, of which the success shares ENC's buffer. -/
theorem encbWritesForTheDestination : Obligations.EncbWritesForTheDestination := by
  unfold Obligations.EncbWritesForTheDestination
  intro cs sg s
  exact ⟨exec_encb_of_negative cs, exec_encb_of_small cs,
    fun h hd => ⟨_, (encodeCore_spec s.vin cs).2, exec_enc_of_not_negative cs h, exec_encb_of_fits cs h hd⟩,
    exec_encb_eq_enc cs sg⟩

/-! ### The fill index -/

/-- A loop whose rounds are enough for the value stops by itself, whatever more it is given. -/
theorem encodeLoop_add {n : Nat} (extra : Nat) {w : Word} (ob : Memory) (i : Nat) (hn : 1 ≤ n)
    (hw : w.toNat < 32 ^ n) : encodeLoop (n + extra) w ob i = encodeLoop n w ob i := by
  induction n, hn using Nat.le_induction generalizing w ob i with
  | base =>
    have hz : shiftGroup w = 0 := shiftGroup_eq_zero.mpr hw
    rw [Nat.add_comm, encodeLoop, encodeLoop, if_pos hz, if_pos hz]
  | succ n _ ih =>
    rw [Nat.add_right_comm, encodeLoop, encodeLoop]
    by_cases hz : shiftGroup w = 0
    · rw [if_pos hz, if_pos hz]
    · rw [if_neg hz, if_neg hz]
      refine ih _ _ ?_
      rw [shiftGroup_toNat]
      rw [Nat.pow_succ] at hw
      omega

/-- Settles O14: the index ends 14 less the string's length, which is 14 exactly for 13 groups and a check
symbol; 13 rounds are enough for any 64-bit value. -/
theorem fillIndexStaysInTheBuffer : Obligations.FillIndexStaysInTheBuffer := by
  unfold Obligations.FillIndexStaysInTheBuffer
  refine ⟨fun v cs => ?_, fun extra w ob i => encodeLoop_add extra ob i (by omega) (word_lt w)⟩
  have hpos := groupCount_pos v
  have hle := groupCount_le_13 v
  rw [(encodeCore_spec v cs).1, encodedString_length, ← groupCount_eq_13_iff]
  cases cs with
  | false => simp only [Bool.toNat_false, Bool.false_eq_true, false_and, iff_false]; omega
  | true => simp only [Bool.toNat_true, true_and]; omega

/-! ### The last symbol -/

/-- The buffer's last slot holds the string's last symbol (10_state.md R37). -/
theorem holdsString_read_last {ob : Memory} {str : List Byte} (h : holdsString ob str) (hne : str ≠ []) :
    ob.read 13 = str.getLast hne := by
  obtain ⟨h14, hread, -⟩ := h
  have hpos := List.length_pos_iff.mpr hne
  rw [List.getLast_eq_getElem, ← hread]
  congr 1
  omega

theorem encodedString_ne_nil (v : Word) (cs : Bool) : encodedString v cs ≠ [] := by
  have hpos := groupCount_pos v
  rw [← List.length_pos_iff, encodedString_length]
  omega

/-- The last symbol: the check value's with a check symbol, else the low group's (R145). -/
theorem getLast_encodedString (v : Word) (cs : Bool) :
    (encodedString v cs).getLast (encodedString_ne_nil v cs)
      = encSymbol (v.toNat % if cs = true then 37 else 32) := by
  cases cs with
  | false =>
    have hpos := groupCount_pos v
    have hlen : (encodedString v false).length = groupCount v := encodedString_length v false
    rw [List.getLast_eq_getElem, encodedString_data (by omega), hlen, Nat.sub_self, group_zero, lowGroup_eq]
    rfl
  | true => simp [encodedString]

theorem encodeCore_read_last (v : Word) (cs : Bool) :
    (encodeCore v cs).1.read 13 = encSymbol (v.toNat % if cs = true then 37 else 32) := by
  rw [holdsString_read_last (encodeCore_spec v cs).2 (encodedString_ne_nil v cs), getLast_encodedString]

/-- OLEN's 8 bits hold the length: the groups, and one more with a check symbol (R151). -/
theorem olen_toNat (v : Word) (cs : Bool) :
    (BitVec.ofNat 8 (encodedString v cs).length).toNat = groupCount v + cs.toNat := by
  have hle := groupCount_le_13 v
  have hcs := Bool.toNat_le cs
  rw [encodedString_length, BitVec.toNat_ofNat, Nat.mod_eq_of_lt (by omega)]

/-- The five check-only symbols decode to no data value, which every data symbol does (R145). -/
theorem encSymbol_notMem_checkOnly {v : Nat} (hv : v < 32) :
    encSymbol v ∉ ([0x2A, 0x7E, 0x24, 0x3D, 0x55] : List Byte) := by
  have hnone : ∀ c ∈ ([0x2A, 0x7E, 0x24, 0x3D, 0x55] : List Byte), dataDec c = none := by decide
  intro hmem
  have := hnone _ hmem
  rw [dataDec_encSymbol v hv] at this
  cases this

/-- Settles O15: ENC and ENCB complete with the same buffer and OLEN, whose last symbol and value are
those of the canonical string. -/
theorem checkSymbolIsTheLastSymbol : Obligations.CheckSymbolIsTheLastSymbol := by
  unfold Obligations.CheckSymbolIsTheLastSymbol
  refine ⟨fun sg s h => ?_, fun v => encSymbol_notMem_checkOnly⟩
  have hlast := encodeCore_read_last s.vin
  have holen := olen_toNat s.vin
  exact ⟨⟨_, exec_enc_of_not_negative true h, hlast true, holen true⟩,
    ⟨_, exec_enc_of_not_negative false h, hlast false, holen false⟩,
    fun hd => ⟨_, exec_encb_of_fits true h hd, hlast true, holen true⟩,
    fun hd => ⟨_, exec_encb_of_fits false h hd, hlast false, holen false⟩⟩

/-! ### The two tests and the operands -/

/-- Values that pass the sign test under both settings of SG are encoded alike (R142). -/
theorem exec_encode_sg_irrelevant {sg sg' : Bool} {s : State} (cs : Bool)
    (h : ¬ (sg = true ∧ s.vin.getLsbD 63 = true)) (h' : ¬ (sg' = true ∧ s.vin.getLsbD 63 = true)) :
    exec (.enc cs sg) s = exec (.enc cs sg') s ∧ exec (.encb cs sg) s = exec (.encb cs sg') s := by
  refine ⟨by rw [exec_enc_of_not_negative cs h, exec_enc_of_not_negative cs h'], ?_⟩
  rcases Nat.lt_or_ge s.dlen.toNat 14 with hd | hd
  · rw [exec_encb_of_small cs h hd, exec_encb_of_small cs h' hd]
  · rw [exec_encb_of_fits cs h hd, exec_encb_of_fits cs h' hd]

/-- Settles O10: the sign test fails for SG = 1 and bit 63 only, and every other outcome is independent
of SG and has another cause. -/
theorem signTestIsAllThatSgChanges : Obligations.SignTestIsAllThatSgChanges := by
  unfold Obligations.SignTestIsAllThatSgChanges
  intro cs s
  have hunsigned : ¬ (false = true ∧ s.vin.getLsbD 63 = true) := by simp
  refine ⟨fun hneg => ⟨exec_enc_of_negative cs ⟨rfl, hneg⟩, exec_encb_of_negative cs ⟨rfl, hneg⟩⟩,
    fun hpos => exec_encode_sg_irrelevant cs (by rw [hpos]; decide) hunsigned,
    ⟨_, exec_enc_of_not_negative cs hunsigned, rfl⟩, ?_⟩
  rcases Nat.lt_or_ge s.dlen.toNat 14 with hd | hd
  · exact ⟨_, exec_encb_of_small cs hunsigned hd, by simp [failedRecord]⟩
  · exact ⟨_, exec_encb_of_fits cs hunsigned hd, by simp [encodedRecord]⟩

/-- Settles O11: past the sign test the size test alone decides. -/
theorem destinationBoundIsFourteen : Obligations.DestinationBoundIsFourteen := by
  unfold Obligations.DestinationBoundIsFourteen
  intro cs sg s h
  exact ⟨exec_encb_of_small cs h, fun hd => ⟨_, exec_encb_of_fits cs h hd, rfl⟩⟩

/-- Settles O16: the records are functions of VIN, and of VIN and DLEN. -/
theorem encodeDependsOnItsOperandsAlone : Obligations.EncodeDependsOnItsOperandsAlone := by
  unfold Obligations.EncodeDependsOnItsOperandsAlone
  intro cs sg s s' hv
  exact ⟨exec_of_recordOf_eq (congrArg (encRecord cs sg) hv),
    fun hd => exec_of_recordOf_eq (congrArg₂ (encbRecord cs sg) hv hd)⟩

end Sys2Proof.Machine
end

section
/-! One rule per outcome of a decode, derived from its completion record once (42_decode.md R171 to R189): the
length tests, the way the scan ends, and the tests after it. -/

namespace Sys2Proof.Machine

/-! ### The length tests -/

theorem lengthBeyondBuffer_iff {cfg : Config} {n : Byte} :
    lengthBeyondBuffer cfg n = true ↔ cfg.lmax < n.toNat :=
  decide_eq_true_iff

theorem recordOf_dec_of_long {s : State} (cs : Bool) (h : s.cfg.lmax < s.ilen.toNat) :
    recordOf (.dec cs) s = failedRecord 0x2A 11 0 0 0 0 := by
  rw [recordOf, decRecord, if_pos (lengthBeyondBuffer_iff.mpr h), raise_badIlen]

theorem recordOf_dec_of_empty {s : State} (cs : Bool) (h : s.ilen = 0) :
    recordOf (.dec cs) s = failedRecord 0x0A 2 0 0 0 0 := by
  have hfits : ¬ lengthBeyondBuffer s.cfg s.ilen = true := by simp [lengthBeyondBuffer_iff, h]
  have hempty : s.ilen = 0#8 := h
  rw [recordOf, decRecord, if_neg hfits, if_pos hempty, raise_emptyInput]

/-- Every length is beyond the buffer, empty, or one DEC scans (42_decode.md R172, R173). -/
theorem length_cases (s : State) : s.cfg.lmax < s.ilen.toNat ∨ s.ilen = 0 ∨ lengthOk s := by
  by_cases hzero : s.ilen = 0
  · exact .inr (.inl hzero)
  · have hpos : s.ilen.toNat ≠ 0 := fun h => hzero (BitVec.eq_of_toNat_eq h)
    simp only [lengthOk]
    omega

/-! ### How the scan ends -/

theorem recordOf_dec_of_error {s : State} {cs : Bool} {f : Failure} (hl : lengthOk s)
    (h : scan cs s.ibuf s.ilen.toNat scanStart = .error f) : recordOf (.dec cs) s = raise f := by
  rw [recordOf_dec hl, h]

theorem recordOf_dec_of_ok {s : State} {cs : Bool} {a : Scan} (hl : lengthOk s)
    (h : scan cs s.ibuf s.ilen.toNat scanStart = .ok a) :
    recordOf (.dec cs) s = finishScan s.cfg cs a := by
  rw [recordOf_dec hl, h]

/-- With no check symbol awaited the scan consumes data characters and skips hyphens down to the first
character that is neither, and fails there (42_decode.md R180). -/
theorem scan_badData {cs : Bool} {ibuf : Memory} {n k : Nat} {a : Scan} (hm : (cs && !a.ckseen) = false)
    (hk : k < n) (hh : ibuf.read k ≠ hyphen) (hd : dataDec (ibuf.read k) = none)
    (hafter : ∀ j, k < j → j < n → ibuf.read j = hyphen ∨ (dataDec (ibuf.read j)).isSome = true) :
    scan cs ibuf n a = .error (.dataSymbol (position k) (ibuf.read k)) := by
  induction n generalizing a with
  | zero => omega
  | succ n ih =>
    rcases Nat.lt_succ_iff_lt_or_eq.mp hk with hlt | rfl
    · have hbelow : ∀ j, k < j → j < n → ibuf.read j = hyphen ∨ (dataDec (ibuf.read j)).isSome = true :=
        fun j h1 h2 => hafter j h1 (by omega)
      by_cases hn : ibuf.read n = hyphen
      · rw [scan, hn, scanChar_hyphen]
        exact ih hm hlt hbelow
      · obtain ⟨d, hsome⟩ := Option.isSome_iff_exists.mp ((hafter n hlt (by omega)).resolve_left hn)
        rw [scan, scanChar_data hn hm, hsome]
        exact ih hm hlt hbelow
    · rw [scan, scanChar_data hh hm, hd]

/-- A check symbol with hyphens alone after it is recorded, and the scan goes on below it (42_decode.md R177). -/
theorem scan_recordCheck {ibuf : Memory} {n m : Nat} {a : Scan} {v : BitVec 6} (ha : a.ckseen = false)
    (hm : m < n) (hh : ibuf.read m ≠ hyphen) (hv : chkDec (ibuf.read m) = some v)
    (hafter : ∀ j, m < j → j < n → ibuf.read j = hyphen) :
    scan true ibuf n a = scan true ibuf m (a.recordCheck v) := by
  rw [scan_hyphens hm hafter, scan, scanChar_check hh (by simp [ha]), hv]

/-- An awaited check symbol that is not valid, with hyphens alone after it, ends the scan (42_decode.md R178). -/
theorem scan_badCheck {ibuf : Memory} {n k : Nat} {a : Scan} (ha : a.ckseen = false) (hk : k < n)
    (hh : ibuf.read k ≠ hyphen) (hd : chkDec (ibuf.read k) = none)
    (hafter : ∀ j, k < j → j < n → ibuf.read j = hyphen) :
    scan true ibuf n a = .error (.checkSymbol (position k) (ibuf.read k)) := by
  rw [scan_hyphens hk hafter, scan, scanChar_check hh (by simp [ha]), hd]

/-- An input of hyphens alone leaves the scan where it starts, with either flag (42_decode.md R176). -/
theorem scan_of_no_character {ibuf : Memory} {n : Nat} (cs : Bool) (h : scannedChars ibuf n = []) :
    scan cs ibuf n scanStart = .ok scanStart := by
  cases cs with
  | false => exact (scan_data rfl).mpr ⟨[], by rw [h, decodesTo]; rfl, rfl⟩
  | true => exact (scan_check rfl).mpr (.inl ⟨h, rfl⟩)

/-- The scan reads the characters below its length and no others (42_decode.md R193). -/
theorem scan_congr {ibuf ibuf' : Memory} {n : Nat} (cs : Bool) (a : Scan)
    (h : ∀ k, k < n → ibuf.read k = ibuf'.read k) : scan cs ibuf n a = scan cs ibuf' n a := by
  induction n generalizing a with
  | zero => rfl
  | succ n ih =>
    have hbelow := fun b => ih b fun k hk => h k (by omega)
    rw [scan, scan, h n (by omega)]
    cases scanChar cs n (ibuf'.read n) a with
    | error f => rfl
    | ok b => exact hbelow b

/-! ### The check symbol that was not met -/

theorem finishScan_noCheckSymbol {cfg : Config} {a : Scan} (hck : a.ckseen = false)
    (hp : cfg.nodataIsZero = true) : finishScan cfg true a = raise .noCheckSymbol := by
  have hdata : ¬ (a.ndata = 0 ∧ cfg.nodataIsZero = false) := by simp [hp]
  rw [finishScan, if_neg hdata, if_pos rfl, if_pos hck]

/-- The scan's failures have the causes DATA_SYMBOL and CHECK_SYMBOL alone. -/
theorem ecause_of_scan_error {cs : Bool} {ibuf : Memory} {n : Nat} {a : Scan} {f : Failure}
    (h : scan cs ibuf n a = .error f) : (raise f).ecause = 6 ∨ (raise f).ecause = 7 := by
  obtain ⟨k, -, -, ⟨rfl, -⟩ | ⟨-, rfl, -⟩⟩ := scan_error h
  · exact .inl rfl
  · exact .inr rfl

/-- Of the tests after the scan NO_CHECK_SYMBOL is the second one's: a check symbol was asked for and not
met, and NO_DATA did not fail first (42_decode.md R186, R187). -/
theorem finishScan_ecause_noCheckSymbol {cfg : Config} {cs : Bool} {a : Scan}
    (h : (finishScan cfg cs a).ecause = 4) :
    cs = true ∧ a.ckseen = false ∧ ¬ (a.ndata = 0 ∧ cfg.nodataIsZero = false) := by
  unfold finishScan at h
  split_ifs at h with hnodata hcs hck hmismatch
  · simp [raise, causeCode] at h
  · exact ⟨hcs, hck, hnodata⟩
  · simp [raise, causeCode] at h
  · simp [succeedDecode] at h
  · simp [succeedDecode] at h

/-- Where NO_CHECK_SYMBOL comes from: not from the length tests, not from a character, and after a scan
that met no check symbol only if it met nothing at all (42_decode.md R187). -/
theorem recordOf_dec_ecause_noCheckSymbol {s : State} {cs : Bool} (h : (recordOf (.dec cs) s).ecause = 4) :
    cs = true ∧ lengthOk s ∧ s.cfg.nodataIsZero = true ∧ scannedChars s.ibuf s.ilen.toNat = [] := by
  rcases length_cases s with hlong | hempty | hl
  · rw [recordOf_dec_of_long cs hlong] at h
    exact absurd h (by decide)
  · rw [recordOf_dec_of_empty cs hempty] at h
    exact absurd h (by decide)
  · cases hscan : scan cs s.ibuf s.ilen.toNat scanStart with
    | error f =>
      rw [recordOf_dec_of_error hl hscan] at h
      rcases ecause_of_scan_error hscan with h6 | h7
      · exact absurd (h6.symm.trans h) (by decide)
      · exact absurd (h7.symm.trans h) (by decide)
    | ok a =>
      rw [recordOf_dec_of_ok hl hscan] at h
      obtain ⟨rfl, hck, hdata⟩ := finishScan_ecause_noCheckSymbol h
      rcases (scan_check rfl).mp hscan with ⟨hnil, rfl⟩ | ⟨c, rest, v, ds, -, -, -, rfl⟩
      · exact ⟨rfl, hl, by simpa [scanStart] using hdata, hnil⟩
      · simp at hck

end Sys2Proof.Machine
end

section
/-! What the scan makes of an input but for positions: a function of the non-hyphen characters alone
(42_decode.md R176, R180). -/

namespace Sys2Proof.Machine

/-- A failure with the position it reports taken out. -/
def Failure.atNoPosition : Failure → Failure
  | .dataSymbol _ chr => .dataSymbol 0 chr
  | .checkSymbol _ chr => .checkSymbol 0 chr
  | f => f

/-- EPOS is the only register a position reaches (10_state.md R31). -/
theorem raise_atNoPosition (f : Failure) : raise f.atNoPosition = { raise f with epos := 0 } := by
  cases f <;> rfl

/-- `scanChar` for a character whose index is not known. -/
def scanUnplaced (cs : Bool) (a : Scan) (ch : Byte) : Except Failure Scan :=
  (scanChar cs 0 ch a).mapError Failure.atNoPosition

/-- The index only says which position a failure reports. -/
theorem scanChar_mapError (cs : Bool) (k : Nat) (ch : Byte) (a : Scan) :
    (scanChar cs k ch a).mapError Failure.atNoPosition = scanUnplaced cs a ch := by
  unfold scanUnplaced scanChar
  split_ifs with hh hcheck
  · rfl
  · cases chkDec ch <;> rfl
  · cases dataDec ch <;> rfl

/-- But for positions the scan goes through the non-hyphen characters, last one first (42_decode.md R176). -/
theorem scan_mapError (cs : Bool) (ibuf : Memory) (n : Nat) (a : Scan) :
    (scan cs ibuf n a).mapError Failure.atNoPosition
      = (scannedChars ibuf n).foldlM (scanUnplaced cs) a := by
  induction n generalizing a with
  | zero => rfl
  | succ n ih =>
    by_cases hh : ibuf.read n = hyphen
    · rw [scan, hh, scanChar_hyphen, scannedChars_succ_hyphen hh]
      exact ih a
    · rw [scan, scannedChars_succ hh, List.foldlM_cons, ← scanChar_mapError cs n]
      cases scanChar cs n (ibuf.read n) a with
      | error f => rfl
      | ok b => exact ih b

/-- What DEC completes with once the scan has ended (42_decode.md R180, R185). -/
def scanRecord (cfg : Config) (cs : Bool) : Except Failure Scan → Completion
  | .error f => raise f
  | .ok a => finishScan cfg cs a

/-- The tests after the scan report no position. -/
theorem finishScan_with_epos_zero (cfg : Config) (cs : Bool) (a : Scan) :
    { finishScan cfg cs a with epos := 0 } = finishScan cfg cs a := by
  unfold finishScan
  split_ifs
  all_goals rfl

/-- But for EPOS the record is a function of the parameters and the non-hyphen characters. -/
theorem recordOf_dec_with_epos_zero {s : State} (cs : Bool) (hl : lengthOk s) :
    { recordOf (.dec cs) s with epos := 0 }
      = scanRecord s.cfg cs
          ((scannedChars s.ibuf s.ilen.toNat).foldlM (scanUnplaced cs) scanStart) := by
  rw [← scan_mapError]
  cases hscan : scan cs s.ibuf s.ilen.toNat scanStart with
  | error f =>
    rw [recordOf_dec_of_error hl hscan]
    exact (raise_atNoPosition f).symm
  | ok a =>
    rw [recordOf_dec_of_ok hl hscan]
    exact finishScan_with_epos_zero s.cfg cs a

end Sys2Proof.Machine
end

section
/-! The obligations of 42_decode.md R172 to R193 on how DEC fails, what it skips and what it depends on, each
from the rules of the decode's outcomes. -/

namespace Sys2Proof.Machine

/-! ### The length and the characters -/

/-- Settles O19: the two length tests decide before the scan. -/
theorem lengthTestsComeFirst : Obligations.LengthTestsComeFirst := by
  unfold Obligations.LengthTestsComeFirst
  intro cs s
  exact ⟨fun h => by rw [exec_eq, recordOf_dec_of_long cs h],
    fun h => by rw [exec_eq, recordOf_dec_of_empty cs h]⟩

/-- CHKDEC folds no look-alike letter (30_encoding.md R94). -/
theorem chkDec_lookalike :
    ∀ c ∈ ([0x6F, 0x4F, 0x69, 0x49, 0x6C, 0x4C] : List Byte), chkDec c = none := by
  decide

/-- CHKDEC folds no case (30_encoding.md R94). -/
theorem chkDec_lowerCase : ∀ c : Byte, 0x61 ≤ c.toNat → c.toNat ≤ 0x7A → chkDec c = none := by
  decide

/-- Settles O22: the scan skips the hyphens down to the character and fails on it. -/
theorem badCheckSymbolIsReported : Obligations.BadCheckSymbolIsReported := by
  unfold Obligations.BadCheckSymbolIsReported
  refine ⟨fun s k hl hk hafter hh hd => ?_, chkDec_lookalike, chkDec_lowerCase⟩
  rw [exec_eq, recordOf_dec_of_error hl (scan_badCheck rfl hk hh hd hafter), raise_checkSymbol]
  rfl

/-- Settles O23: with CS = 0 the scan comes to the character from the end of the input, with CS = 1 from the
check symbol it has recorded. -/
theorem badDataSymbolNearestTheEndIsReported : Obligations.BadDataSymbolNearestTheEndIsReported := by
  unfold Obligations.BadDataSymbolNearestTheEndIsReported
  intro s k hl hk hh hd
  refine ⟨fun hafter => ?_, fun m hkm hm hhm hchk hhyphens hbetween => ?_⟩
  · rw [exec_eq, recordOf_dec_of_error hl (scan_badData rfl hk hh hd hafter), raise_dataSymbol]
    rfl
  · obtain ⟨v, hv⟩ := Option.isSome_iff_exists.mp hchk
    have hscan : scan true s.ibuf s.ilen.toNat scanStart
        = .error (.dataSymbol (position k) (s.ibuf.read k)) := by
      rw [scan_recordCheck rfl hm hhm hv hhyphens]
      exact scan_badData rfl hkm hh hd hbetween
    rw [exec_eq, recordOf_dec_of_error hl hscan, raise_dataSymbol]
    rfl

/-! ### The tests after the scan -/

/-- Settles O24: without a data character the count is 0, which the default parameter refuses; under the
legacy one the input denotes the number of no digits. -/
theorem noDataCharacterByParameter : Obligations.NoDataCharacterByParameter := by
  unfold Obligations.NoDataCharacterByParameter
  intro s hl
  refine ⟨fun hp hnil cs => ?_, fun hp c v hone hv => ?_, fun hp hnil => ?_, fun hp c v hone hv => ?_⟩
  · rw [exec_eq, recordOf_dec_of_ok hl (scan_of_no_character cs hnil), finishScan_noData rfl hp, raise_noData]
  · have hscan := (scan_check (b := scanStart.recordCheck v) rfl).mpr (.inr ⟨c, [], v, [], hone, hv, rfl, rfl⟩)
    rw [exec_eq, recordOf_dec_of_ok hl hscan, finishScan_noData rfl hp, raise_noData]
  · have hdec : decodesTo (scannedChars s.ibuf s.ilen.toNat) [] := by rw [hnil, decodesTo]; rfl
    rw [exec_eq, recordOf_dec_data hl (.inr hp) hdec]
    rfl
  · rw [exec_eq, recordOf_dec_check (ds := []) hl (.inr hp) hone hv rfl]
    by_cases hzero : v = 0
    · subst hzero
      rfl
    · have hne : ¬ number [] % 2 ^ 64 % 37 = v.toNat := fun h => hzero (BitVec.eq_of_toNat_eq h.symm)
      rw [if_neg hne, if_neg hzero]
      rfl

/-- Settles O25: hyphens alone leave the check symbol awaited, and the cause has no other source. -/
theorem noCheckSymbolOnlyOnHyphensUnderLegacy : Obligations.NoCheckSymbolOnlyOnHyphensUnderLegacy := by
  unfold Obligations.NoCheckSymbolOnlyOnHyphensUnderLegacy
  refine fun s => ⟨fun hl hp hnil => ?_, fun cs t ht hcause => ?_⟩
  · rw [exec_eq, recordOf_dec_of_ok hl (scan_of_no_character true hnil), finishScan_noCheckSymbol rfl hp,
      raise_noCheckSymbol]
  · rw [exec_next_iff.mp ht, State.complete_ecause] at hcause
    exact recordOf_dec_ecause_noCheckSymbol hcause

/-- Settles O26: the record of an input whose characters all pass, in the case where the check values differ. -/
theorem checkMismatchReportsBothValues : Obligations.CheckMismatchReportsBothValues := by
  unfold Obligations.CheckMismatchReportsBothValues
  intro s ds c rest v hl hds hscanned hv hdec hne
  rw [exec_eq, recordOf_dec_check hl hds hscanned hv hdec, if_neg hne]

/-! ### What DEC depends on -/

/-- Settles O27: the record is a function of the parameters, ILEN and the scan's result. -/
theorem decDependsOnItsInputAlone : Obligations.DecDependsOnItsInputAlone := by
  unfold Obligations.DecDependsOnItsInputAlone
  intro cs s s' hcfg hilen hread
  refine exec_of_recordOf_eq ?_
  show decRecord s.cfg cs s.ilen s.ibuf = decRecord s'.cfg cs s'.ilen s'.ibuf
  rw [← hcfg, ← hilen, decRecord, decRecord, scan_congr cs scanStart hread]

/-- Settles O28: one hyphen changes nothing the scan keeps, and the whole scan is, but for positions, a
function of the other characters. -/
theorem hyphensAreSkipped : Obligations.HyphensAreSkipped := by
  unfold Obligations.HyphensAreSkipped
  refine ⟨scanChar_hyphen, fun cs s s' hcfg hl hl' hscanned =>
    ⟨_, _, exec_eq _ s, exec_eq _ s', ?_⟩⟩
  rw [State.results_complete, State.results_complete, recordOf_dec_with_epos_zero cs hl,
    recordOf_dec_with_epos_zero cs hl', hcfg, hscanned]

end Sys2Proof.Machine
end

section
/-! Everything the completion record of an operation can be: the record of a failure, or that of one of the four
successes (60_exceptions.md R213, R214); and what STATUS and the diagnostics hold in each. -/

namespace Sys2Proof.Machine

/-! ### The fields of a completion's STATUS -/

/-- A completion's STATUS holds each field as it was put in, and BUSY = 0 (60_exceptions.md R213). -/
theorem completedStatus_fields : ∀ (ovf : Bool) (err : BitVec 3) (ok : Bool),
    statusBusy (completedStatus ovf err ok) = false ∧ statusOk (completedStatus ovf err ok) = ok
    ∧ statusErr (completedStatus ovf err ok) = err ∧ statusOvf (completedStatus ovf err ok) = ovf := by
  decide

theorem raise_status_fields (f : Failure) :
    statusBusy (raise f).status = false ∧ statusOk (raise f).status = false
    ∧ statusErr (raise f).status = errCode (failureKind f) ∧ statusOvf (raise f).status = false :=
  completedStatus_fields false (errCode (failureKind f)) false

theorem encodedRecord_status_fields (ob : Memory) (n st : Nat) :
    statusBusy (encodedRecord ob n st).status = false ∧ statusOk (encodedRecord ob n st).status = true
    ∧ statusErr (encodedRecord ob n st).status = 0 ∧ statusOvf (encodedRecord ob n st).status = false :=
  completedStatus_fields false 0 true

theorem decodedRecord_status_fields (v : Word) (ovf : Bool) (ck : Byte) :
    statusBusy (decodedRecord v ovf ck).status = false ∧ statusOk (decodedRecord v ovf ck).status = true
    ∧ statusErr (decodedRecord v ovf ck).status = 0 ∧ statusOvf (decodedRecord v ovf ck).status = ovf := by
  rw [← succeedDecode_eq]
  exact completedStatus_fields ovf 0 true

/-! ### The record of a failure -/

theorem errCode_ne_zero (k : ErrKind) : errCode k ≠ 0 := by
  cases k <;> decide

theorem causeCode_ne_zero (f : Failure) : causeCode f ≠ 0 := by
  cases f <;> simp [causeCode]

/-- Only a bad symbol has a position and a character to report (10_state.md R31, R32). -/
theorem failurePos_failureChr_eq_zero {f : Failure} (h : errCode (failureKind f) ≠ 3) :
    failurePos f = 0 ∧ failureChr f = 0 := by
  cases f with
  | dataSymbol pos chr => exact absurd rfl h
  | checkSymbol pos chr => exact absurd rfl h
  | _ => exact ⟨rfl, rfl⟩

/-- Only a mismatch has check values to report (10_state.md R33, R34). -/
theorem failureCalc_failureSym_eq_zero {f : Failure} (h : errCode (failureKind f) ≠ 4) :
    failureCalc f = 0 ∧ failureSym f = 0 := by
  cases f with
  | checkMismatch computed symbol => exact absurd rfl h
  | _ => exact ⟨rfl, rfl⟩

/-! ### The records of a success -/

/-- The records an operation can leave when it succeeds on a state: ENC's and ENCB's with ENCODE_CORE's buffer,
and DEC's with the number the input denotes, without and with a check symbol (60_exceptions.md R213). -/
inductive SuccessRecord (s : State) : Instr → Completion → Prop where
  | enc (cs sg : Bool) : SuccessRecord s (.enc cs sg)
      (encodedRecord (encodeCore s.vin cs).1 (encodedString s.vin cs).length
        (14 - (encodedString s.vin cs).length))
  | encb (cs sg : Bool) (hfits : 14 ≤ s.dlen.toNat) : SuccessRecord s (.encb cs sg)
      (encodedRecord (encodeCore s.vin cs).1 (encodedString s.vin cs).length
        (s.dlen.toNat - (encodedString s.vin cs).length))
  | dec {ds : List (BitVec 5)} (hdec : decodesTo (scannedChars s.ibuf s.ilen.toNat) ds) :
      SuccessRecord s (.dec false)
        (decodedRecord (BitVec.ofNat 64 (number ds)) (decide (2 ^ 64 ≤ number ds)) 0)
  | decCheck {c : Byte} {rest : List Byte} {v : BitVec 6} {ds : List (BitVec 5)}
      (hscan : scannedChars s.ibuf s.ilen.toNat = c :: rest) (hchk : chkDec c = some v)
      (hdec : decodesTo rest ds) :
      SuccessRecord s (.dec true)
        (decodedRecord (BitVec.ofNat 64 (number ds)) (decide (2 ^ 64 ≤ number ds)) (v.setWidth 8))

/-- A success has OK = 1 and no cause, kind, position or character, and its two check values agree. -/
theorem SuccessRecord.no_error {s : State} {i : Instr} {r : Completion} (h : SuccessRecord s i r) :
    statusBusy r.status = false ∧ statusOk r.status = true ∧ statusErr r.status = 0
    ∧ r.ecause = 0 ∧ r.epos = 0 ∧ r.echr = 0 ∧ r.ckcalc = r.cksym := by
  cases h with
  | enc | encb =>
    obtain ⟨hbusy, hok, herr, -⟩ := encodedRecord_status_fields _ _ _
    exact ⟨hbusy, hok, herr, rfl, rfl, rfl, rfl⟩
  | dec | decCheck =>
    obtain ⟨hbusy, hok, herr, -⟩ := decodedRecord_status_fields _ _ _
    exact ⟨hbusy, hok, herr, rfl, rfl, rfl, rfl⟩

/-! ### Failure or success -/

/-- The tests after the scan raise a failure, or let the value through with the check value they verified
(42_decode.md R185 to R189). -/
theorem finishScan_cases (cfg : Config) (cs : Bool) (a : Scan) :
    (∃ f, finishScan cfg cs a = raise f)
    ∨ (cs = false ∧ finishScan cfg cs a = decodedRecord a.acc a.ovf 0)
    ∨ (cs = true ∧ a.ckseen = true ∧ finishScan cfg cs a = decodedRecord a.acc a.ovf (a.ck.setWidth 8)) := by
  unfold finishScan
  split_ifs with hnodata hcs hseen hmismatch
  · exact .inl ⟨_, rfl⟩
  · exact .inl ⟨_, rfl⟩
  · exact .inl ⟨_, rfl⟩
  · have hcheck : BitVec.ofNat 8 (checkValue a.acc) = a.ck.setWidth 8 := by
      rw [not_not.mp hmismatch, BitVec.ofNat_toNat]
    rw [hcheck, succeedDecode_eq]
    exact .inr (.inr ⟨hcs, Bool.eq_true_of_not_eq_false hseen, rfl⟩)
  · exact .inr (.inl ⟨Bool.eq_false_of_not_eq_true hcs, succeedDecode_eq _ _ _⟩)

/-- DEC's record once the scan has come to its end. -/
theorem finishScan_of_scan_ok {s : State} {cs : Bool} {a : Scan}
    (hscan : scan cs s.ibuf s.ilen.toNat scanStart = .ok a) :
    (∃ f, finishScan s.cfg cs a = raise f) ∨ SuccessRecord s (.dec cs) (finishScan s.cfg cs a) := by
  rcases finishScan_cases s.cfg cs a with hraise | ⟨rfl, hrec⟩ | ⟨rfl, hseen, hrec⟩
  · exact .inl hraise
  · obtain ⟨ds, hdec, rfl⟩ := (scan_data rfl).mp hscan
    obtain ⟨hacc, -, hovf⟩ := consumeAll_start ds
    rw [hrec, hacc, hovf]
    exact .inr (.dec hdec)
  · rcases (scan_check rfl).mp hscan with ⟨-, rfl⟩ | ⟨c, rest, v, ds, hchars, hchk, hdec, rfl⟩
    · cases hseen
    · obtain ⟨hacc, -, hovf, hck, -⟩ := consumeAll_recordCheck v ds
      rw [hrec, hacc, hovf, hck]
      exact .inr (.decCheck hchars hchk hdec)

/-- Everything an operation's record can be. -/
theorem recordOf_cases (i : Instr) (s : State) :
    (∃ f, recordOf i s = raise f) ∨ SuccessRecord s i (recordOf i s) := by
  cases i with
  | enc cs sg =>
    by_cases hneg : isNegative sg s.vin = true
    · exact .inl ⟨_, if_pos hneg⟩
    · have hrec : recordOf (.enc cs sg) s = _ :=
        encRecord_of_not_negative cs (Bool.eq_false_iff.mpr hneg)
      rw [hrec, (encodeCore_spec s.vin cs).1]
      exact .inr (.enc cs sg)
  | encb cs sg =>
    rw [recordOf, encbRecord]
    split_ifs with hneg hsmall
    · exact .inl ⟨_, rfl⟩
    · exact .inl ⟨_, rfl⟩
    · rw [encodedLength_eq, succeedEncode_eq]
      exact .inr (.encb cs sg (not_lt.mp (destTooSmall_iff.not.mp hsmall)))
  | dec cs =>
    rcases length_cases s with hlong | hempty | hl
    · exact .inl ⟨.badIlen, by rw [recordOf_dec_of_long cs hlong, raise_badIlen]⟩
    · exact .inl ⟨.emptyInput, by rw [recordOf_dec_of_empty cs hempty, raise_emptyInput]⟩
    · cases hscan : scan cs s.ibuf s.ilen.toNat scanStart with
      | error f => exact .inl ⟨f, recordOf_dec_of_error hl hscan⟩
      | ok a =>
        rw [recordOf_dec_of_ok hl hscan]
        exact finishScan_of_scan_ok hscan
  | _ => exact .inl ⟨_, rfl⟩

theorem statusBusy_recordOf (i : Instr) (s : State) : statusBusy (recordOf i s).status = false := by
  rcases recordOf_cases i s with ⟨f, hf⟩ | hsucc
  · rw [hf]
    exact (raise_status_fields f).1
  · exact hsucc.no_error.1

theorem recordOf_of_not_ok {i : Instr} {s : State} (h : statusOk (recordOf i s).status = false) :
    ∃ f, recordOf i s = raise f := by
  rcases recordOf_cases i s with hraise | hsucc
  · exact hraise
  · exact absurd (hsucc.no_error.2.1.symm.trans h) (by decide)

theorem recordOf_of_ok {i : Instr} {s : State} (h : statusOk (recordOf i s).status = true) :
    SuccessRecord s i (recordOf i s) := by
  rcases recordOf_cases i s with ⟨f, hf⟩ | hsucc
  · rw [hf, (raise_status_fields f).2.1] at h
    cases h
  · exact hsucc

/-- The record is a function of the operands an operation can read (41_encode.md R149, 42_decode.md R193). -/
theorem recordOf_congr (i : Instr) {s s' : State} (hvin : s.vin = s'.vin) (hdlen : s.dlen = s'.dlen)
    (hilen : s.ilen = s'.ilen) (hibuf : s.ibuf = s'.ibuf) (hcfg : s.cfg = s'.cfg) :
    recordOf i s = recordOf i s' := by
  cases i <;> simp only [recordOf, hvin, hdlen, hilen, hibuf, hcfg]

end Sys2Proof.Machine
end

section
/-! The obligations of 60_exceptions.md R214 and R216, from the records an operation can leave. -/

namespace Sys2Proof.Machine

/-! ### All results or none -/

/-- A number below 256 is read back whole from an 8-bit register. -/
theorem toNat_ofNat_byte {n : Nat} (h : n < 256) : (BitVec.ofNat 8 n).toNat = n := by
  rw [BitVec.toNat_ofNat, Nat.mod_eq_of_lt h]

/-- A successful encode has the whole canonical string in OBUF, its length in OLEN and the start index it was
given in OSTART (41_encode.md R141, R146). -/
theorem encodedRecord_whole (v : Word) (cs : Bool) {st : Nat} (hst : st < 256) :
    let r := encodedRecord (encodeCore v cs).1 (encodedString v cs).length st
    holdsString r.obuf (encodedString v cs) ∧ r.olen.toNat = (encodedString v cs).length
    ∧ r.ostart.toNat = st ∧ statusOvf r.status = false ∧ 1 ≤ r.olen.toNat ∧ r.olen.toNat ≤ 14 := by
  intro r
  have hstr := (encodeCore_spec v cs).2
  have hpos : 1 ≤ (encodedString v cs).length := List.length_pos_iff.mpr (encodedString_ne_nil v cs)
  have hle : (encodedString v cs).length ≤ 14 := hstr.1
  have holen : r.olen.toNat = (encodedString v cs).length := toNat_ofNat_byte (by omega)
  obtain ⟨-, -, -, hovf⟩ := encodedRecord_status_fields (encodeCore v cs).1 (encodedString v cs).length st
  exact ⟨hstr, holen, toNat_ofNat_byte hst, hovf, holen ▸ hpos, holen ▸ hle⟩

/-- Settles O32: a record without OK is a failure's, which holds nothing but its kind, cause and diagnostics; one
with OK is one of the four successes, which hold the canonical string or the number denoted. -/
theorem operationDeliversAllOrNothing : Obligations.OperationDeliversAllOrNothing := by
  unfold Obligations.OperationDeliversAllOrNothing
  intro i s
  refine ⟨_, exec_eq i s, ?_⟩
  simp only [State.complete_status, State.complete_vout, State.complete_ostart, State.complete_olen,
    State.complete_epos, State.complete_echr, State.complete_ckcalc, State.complete_cksym,
    State.complete_ecause, State.complete_obuf]
  refine ⟨fun hok => ?_, fun hok => ?_⟩
  · obtain ⟨f, hf⟩ := recordOf_of_not_ok hok
    obtain ⟨-, -, herr, hovf⟩ := raise_status_fields f
    rw [hf, herr]
    exact ⟨rfl, fun _ => rfl, rfl, rfl, hovf, errCode_ne_zero _, causeCode_ne_zero f,
      failurePos_failureChr_eq_zero, failureCalc_failureSym_eq_zero⟩
  · have hsucc := recordOf_of_ok hok
    obtain ⟨-, -, herr, hcause, hpos, hchr, hck⟩ := hsucc.no_error
    refine ⟨herr, hcause, hpos, hchr, hck, ?_⟩
    generalize recordOf i s = r at hsucc ⊢
    cases hsucc with
    | enc cs sg =>
      have hst : 14 - (encodedString s.vin cs).length < 256 := by omega
      obtain ⟨hstr, holen, hostart, hrest⟩ := encodedRecord_whole s.vin cs hst
      refine ⟨fun h => (nomatch (Instr.mnemonic_eq_dec_iff _).mp h), fun _ => ⟨rfl, rfl, hrest⟩,
        ?_, nofun, nofun, nofun⟩
      rintro _ _ ⟨⟩
      exact ⟨hstr, holen, hostart.trans (congrArg (14 - ·) holen.symm)⟩
    | encb cs sg hfits =>
      have hst : s.dlen.toNat - (encodedString s.vin cs).length < 256 := by omega
      obtain ⟨hstr, holen, hostart, hrest⟩ := encodedRecord_whole s.vin cs hst
      refine ⟨fun h => (nomatch (Instr.mnemonic_eq_dec_iff _).mp h), fun _ => ⟨rfl, rfl, hrest⟩,
        nofun, ?_, nofun, nofun⟩
      rintro _ _ ⟨⟩
      exact ⟨hstr, holen, hostart.trans (congrArg (s.dlen.toNat - ·) holen.symm)⟩
    | dec hdec =>
      obtain ⟨-, -, -, hovf⟩ := decodedRecord_status_fields _ _ _
      exact ⟨fun _ => ⟨fun _ => rfl, rfl, rfl⟩, fun h => absurd rfl h, nofun, nofun,
        fun _ => ⟨_, hdec, rfl, hovf, rfl⟩, nofun⟩
    | decCheck hscan hchk hdec =>
      obtain ⟨-, -, -, hovf⟩ := decodedRecord_status_fields _ _ _
      exact ⟨fun _ => ⟨fun _ => rfl, rfl, rfl⟩, fun h => absurd rfl h, nofun, nofun, nofun,
        fun _ => ⟨_, _, _, _, hscan, hchk, hdec, rfl, hovf, rfl⟩⟩

/-! ### A retry -/

/-- Settles O35: the record does not depend on the results, and a later completion replaces an earlier one. -/
theorem retryGivesTheSameRecord : Obligations.RetryGivesTheSameRecord := by
  unfold Obligations.RetryGivesTheSameRecord
  intro i s s'
  refine ⟨_, _, exec_eq i s, exec_eq i s', ?_, statusBusy_recordOf i s, recordOf_congr i⟩
  rw [exec_eq, recordOf_complete, State.complete_complete]

end Sys2Proof.Machine
end

section
/-! The encoder and the decoder invert each other (30_encoding.md Part B): an operation is pinned by its row of
the opcode table and its byte, and the row is the decoder's by the family RowMatch. -/

namespace Sys2Proof

theorem commandByte_injective (op : BitVec 2) {cs cs' sg sg' : Bool}
    (h : commandByte op cs sg = commandByte op cs' sg') : cs = cs' ∧ sg = sg' := by
  revert op cs cs' sg sg'
  decide

/-- A legal operation's flags stand in its byte, and an illegal one carries its byte whole. -/
theorem Instr.eq_of_mnemonic_eq_of_encode_eq {i j : Instr} (hrow : i.mnemonic = j.mnemonic)
    (hbyte : encode i = encode j) : i = j := by
  cases i with
  | enc cs sg =>
    obtain ⟨cs', sg', rfl⟩ := j.mnemonic_eq_enc_iff.mp hrow.symm
    obtain ⟨rfl, rfl⟩ := commandByte_injective 0 hbyte
    rfl
  | encb cs sg =>
    obtain ⟨cs', sg', rfl⟩ := j.mnemonic_eq_encb_iff.mp hrow.symm
    obtain ⟨rfl, rfl⟩ := commandByte_injective 1 hbyte
    rfl
  | dec cs =>
    obtain ⟨cs', rfl⟩ := j.mnemonic_eq_dec_iff.mp hrow.symm
    obtain ⟨rfl, -⟩ := commandByte_injective 2 hbyte
    rfl
  | illegalReservedOp c | illegalDecSg c | illegalReservedB7 c | illegalReservedB6 c
  | illegalReservedB5 c | illegalReservedB4 c =>
    cases j <;> simp_all [Instr.mnemonic, encode]

/-- The decoder answers the operation of the one row the byte lies in. -/
theorem decode_encode {i : Instr} (h : i.wellFormed = true) : decode (encode i) = i := by
  have hrow : [(decode (encode i)).mnemonic] = [i.mnemonic] :=
    (matchingRows_eq (encode i)).symm.trans (rowMatch i h)
  exact Instr.eq_of_mnemonic_eq_of_encode_eq (List.singleton_injective hrow) (encode_decode _)

theorem decodeTableWord_byte (c : Byte) : decodeTableWord 8 c.toNat = some (decode c) := by
  have hword : (8 : Nat) = 8 ∧ c.toNat < 256 := ⟨rfl, c.isLt⟩
  rw [decodeTableWord, if_pos hword, BitVec.ofNat_toNat, BitVec.setWidth_eq]
  rfl

/-- Settles O3: the byte decodes to the operation, and both longer forms decode that byte. -/
theorem decodeOfEncodeIsTheOperation : Obligations.DecodeOfEncodeIsTheOperation := by
  unfold Obligations.DecodeOfEncodeIsTheOperation
  intro i rest hwf
  rw [decodeTableWord_byte, decodeBytes, decode_encode hwf]
  exact ⟨rfl, rfl, rfl⟩

/-- Settles O4, by the decoder's branches. -/
theorem encodeOfDecodeIsTheByte : Obligations.EncodeOfDecodeIsTheByte := by
  unfold Obligations.EncodeOfDecodeIsTheByte
  exact fun c => ⟨decode_wellFormed c, encode_decode c⟩

end Sys2Proof
end

section
/-! Everything DEC can complete with, said once with the input each outcome belongs to (42_decode.md R171 to
R190), and from it the obligations on DEC's successes. -/

namespace Sys2Proof.Machine

/-- The input has a data character, or the parameter allows none (42_decode.md R186). -/
abbrev dataAllowed (s : State) (ds : List (BitVec 5)) : Prop := ds ≠ [] ∨ s.cfg.nodataIsZero = true

/-- The records DEC can leave, each with what the input is like then. -/
inductive DecodeRecord (s : State) : Bool → Completion → Prop where
  | tooLong (cs : Bool) : DecodeRecord s cs (failedRecord 0x2A 11 0 0 0 0)
  | empty (cs : Bool) : DecodeRecord s cs (failedRecord 0x0A 2 0 0 0 0)
  | noData (cs : Bool) : DecodeRecord s cs (failedRecord 0x0A 3 0 0 0 0)
  | noCheckSymbol : DecodeRecord s true (failedRecord 0x0A 4 0 0 0 0)
  | badData (cs : Bool) {k : Nat} (hl : lengthOk s) (hk : k < s.ilen.toNat)
      (hh : s.ibuf.read k ≠ hyphen) (hd : dataDec (s.ibuf.read k) = none) :
      DecodeRecord s cs (failedRecord 0x1A 6 (position k) (s.ibuf.read k) 0 0)
  | badCheck {k : Nat} (hl : lengthOk s) (hk : k < s.ilen.toNat)
      (hh : s.ibuf.read k ≠ hyphen) (hd : chkDec (s.ibuf.read k) = none) :
      DecodeRecord s true (failedRecord 0x1A 7 (position k) (s.ibuf.read k) 0 0)
  | mismatch {c : Byte} {v : BitVec 6} (n : Nat) (hchk : chkDec c = some v) (hne : n % 37 ≠ v.toNat) :
      DecodeRecord s true (failedRecord 0x22 8 0 0 (BitVec.ofNat 8 (n % 37)) (v.setWidth 8))
  | value {ds : List (BitVec 5)} (hl : lengthOk s) (hds : dataAllowed s ds)
      (hdec : decodesTo (scannedChars s.ibuf s.ilen.toNat) ds) :
      DecodeRecord s false
        (decodedRecord (BitVec.ofNat 64 (number ds)) (decide (2 ^ 64 ≤ number ds)) 0)
  | checkedValue {c : Byte} {rest : List Byte} {v : BitVec 6} {ds : List (BitVec 5)} (hl : lengthOk s)
      (hds : dataAllowed s ds) (hscan : scannedChars s.ibuf s.ilen.toNat = c :: rest)
      (hchk : chkDec c = some v) (hdec : decodesTo rest ds)
      (heq : number ds % 2 ^ 64 % 37 = v.toNat) :
      DecodeRecord s true
        (decodedRecord (BitVec.ofNat 64 (number ds)) (decide (2 ^ 64 ≤ number ds)) (v.setWidth 8))

theorem finishScan_dataNotAllowed {s : State} {cs : Bool} {a : Scan} {ds : List (BitVec 5)}
    (hlen : a.ndata = ds.length) (h : ¬ dataAllowed s ds) :
    finishScan s.cfg cs a = failedRecord 0x0A 3 0 0 0 0 := by
  obtain ⟨hnil, hp⟩ := not_or.mp h
  have hzero : a.ndata = 0 := by rw [hlen, not_not.mp hnil, List.length_nil]
  rw [finishScan_noData hzero (Bool.eq_false_of_not_eq_true hp), raise_noData]

/-- The record after a scan that consumed data characters alone. -/
theorem decodeRecord_of_data {s : State} {ds : List (BitVec 5)} (hl : lengthOk s)
    (hdec : decodesTo (scannedChars s.ibuf s.ilen.toNat) ds) :
    DecodeRecord s false (finishScan s.cfg false (scanStart.consumeAll ds)) := by
  by_cases hds : dataAllowed s ds
  · rw [finishScan_data s.cfg ds hds]
    exact .value hl hds hdec
  · rw [finishScan_dataNotAllowed (consumeAll_start ds).2.1 hds]
    exact .noData false

/-- The record after a scan that met a check symbol and then data characters alone. -/
theorem decodeRecord_of_check {s : State} {c : Byte} {rest : List Byte} {v : BitVec 6}
    {ds : List (BitVec 5)} (hl : lengthOk s) (hscan : scannedChars s.ibuf s.ilen.toNat = c :: rest)
    (hchk : chkDec c = some v) (hdec : decodesTo rest ds) :
    DecodeRecord s true (finishScan s.cfg true ((scanStart.recordCheck v).consumeAll ds)) := by
  by_cases hds : dataAllowed s ds
  · rw [finishScan_check s.cfg ds v hds]
    split_ifs with heq
    · exact .checkedValue hl hds hscan hchk hdec heq
    · exact .mismatch _ hchk heq
  · rw [finishScan_dataNotAllowed (consumeAll_recordCheck v ds).2.1 hds]
    exact .noData true

/-- The record of an input of hyphens alone when a check symbol is asked for (42_decode.md R186, R187). -/
theorem decodeRecord_of_hyphens (s : State) : DecodeRecord s true (finishScan s.cfg true scanStart) := by
  cases hp : s.cfg.nodataIsZero with
  | false =>
    rw [finishScan_noData rfl hp, raise_noData]
    exact .noData true
  | true =>
    rw [finishScan_noCheckSymbol rfl hp, raise_noCheckSymbol]
    exact .noCheckSymbol

/-- The record of a scan that ended at a bad character (42_decode.md R178, R180). -/
theorem decodeRecord_of_scan_error {s : State} {cs : Bool} {f : Failure} (hl : lengthOk s)
    (h : scan cs s.ibuf s.ilen.toNat scanStart = .error f) : DecodeRecord s cs (raise f) := by
  obtain ⟨k, hk, hh, ⟨rfl, hd⟩ | ⟨rfl, rfl, hd⟩⟩ := scan_error h
  · rw [raise_dataSymbol]
    exact .badData cs hl hk hh hd
  · rw [raise_checkSymbol]
    exact .badCheck hl hk hh hd

/-- Everything DEC can complete with. -/
theorem recordOf_dec_cases (cs : Bool) (s : State) : DecodeRecord s cs (recordOf (.dec cs) s) := by
  rcases length_cases s with hlong | hempty | hl
  · rw [recordOf_dec_of_long cs hlong]
    exact .tooLong cs
  · rw [recordOf_dec_of_empty cs hempty]
    exact .empty cs
  · cases hscan : scan cs s.ibuf s.ilen.toNat scanStart with
    | error f =>
      rw [recordOf_dec_of_error hl hscan]
      exact decodeRecord_of_scan_error hl hscan
    | ok a =>
      rw [recordOf_dec_of_ok hl hscan]
      cases cs with
      | false =>
        obtain ⟨ds, hdec, rfl⟩ := (scan_data rfl).mp hscan
        exact decodeRecord_of_data hl hdec
      | true =>
        obtain ⟨-, rfl⟩ | ⟨c, rest, v, ds, hchars, hchk, hdec, rfl⟩ := (scan_check rfl).mp hscan
        · exact decodeRecord_of_hyphens s
        · exact decodeRecord_of_check hl hchars hchk hdec

/-! ### DEC's successes -/

/-- Settles O20: the scan consumes the values, and the check values agree. -/
theorem decDeliversTheNumber : Obligations.DecDeliversTheNumber := by
  unfold Obligations.DecDeliversTheNumber
  refine fun s ds hl hds => ⟨fun hdec => ?_, fun c rest v hscan hchk hdec heq => ?_⟩
  · rw [exec_eq, recordOf_dec_data hl hds hdec]
  · rw [exec_eq, recordOf_dec_check hl hds hscan hchk hdec, if_pos heq]

/-- Settles O21: of the records DEC can leave only the two of an accepted input have OK = 1. -/
theorem decSucceedsOnAcceptedInputOnly : Obligations.DecSucceedsOnAcceptedInputOnly := by
  unfold Obligations.DecSucceedsOnAcceptedInputOnly
  intro cs s t ht hok
  obtain rfl := exec_next_iff.mp ht
  simp only [State.complete_status, State.complete_vout] at hok ⊢
  have hrec := recordOf_dec_cases cs s
  generalize recordOf (.dec cs) s = r at hrec hok ⊢
  cases hrec with
  | value hl hds hdec =>
    obtain ⟨-, -, -, hovf⟩ := decodedRecord_status_fields _ _ _
    exact ⟨hl, _, hds, rfl, hovf, fun _ => hdec, nofun⟩
  | checkedValue hl hds hscan hchk hdec heq =>
    obtain ⟨-, -, -, hovf⟩ := decodedRecord_status_fields _ _ _
    exact ⟨hl, _, hds, rfl, hovf, nofun, fun _ => ⟨_, _, _, hscan, hchk, hdec, heq⟩⟩
  | _ => exact absurd hok (by simp [failedRecord, statusOk])

end Sys2Proof.Machine
end

section
/-! The completion records of all operations (60_exceptions.md R210 to R213): each is legal, each cause has its
kind, and which operation can fail how. -/

namespace Sys2Proof.Machine

/-! ### Every record is legal -/

/-- A record of one of the three legal forms. -/
def LegalRecord (cfg : Config) (r : Completion) : Prop :=
  FailedRecord cfg r ∨ EncodedRecord r ∨ DecodedRecord r

theorem legalRecord_invalidArgument (cfg : Config) {e : Byte} (h : e = 1 ∨ e = 2 ∨ e = 3 ∨ e = 4) :
    LegalRecord cfg (failedRecord 0x0A e 0 0 0 0) :=
  .inl (.inl ⟨e, h, rfl⟩)

theorem legalRecord_bufferTooSmall (cfg : Config) : LegalRecord cfg (failedRecord 0x12 5 0 0 0 0) :=
  .inl (.inr (.inl rfl))

theorem legalRecord_illegalCommand (cfg : Config) {e : Byte} (h : e = 9 ∨ e = 10 ∨ e = 11) :
    LegalRecord cfg (failedRecord 0x2A e 0 0 0 0) :=
  .inl (.inr (.inr (.inr (.inr (.inr ⟨e, h, rfl⟩)))))

/-- A position DEC reports is the index counted from 1, within the length scanned (10_state.md R31). -/
theorem position_toNat {s : State} {k : Nat} (hk : k < s.ilen.toNat) : (position k).toNat = k + 1 :=
  toNat_ofNat_byte (by have := s.ilen.isLt; omega)

theorem position_range {s : State} {k : Nat} (hl : lengthOk s) (hk : k < s.ilen.toNat) :
    1 ≤ (position k).toNat ∧ (position k).toNat ≤ s.cfg.lmax := by
  obtain ⟨-, hmax⟩ := hl
  rw [position_toNat hk]
  omega

/-- A check symbol's value is kept whole in CKSYM, and a computed one in CKCALC. -/
theorem setWidth_check (v : BitVec 6) : (v.setWidth 8).toNat = v.toNat :=
  BitVec.toNat_setWidth_of_le (by omega)

theorem legalRecord_mismatch (cfg : Config) {c : Byte} {v : BitVec 6} {n : Nat} (hchk : chkDec c = some v)
    (hne : n % 37 ≠ v.toNat) :
    LegalRecord cfg (failedRecord 0x22 8 0 0 (BitVec.ofNat 8 (n % 37)) (v.setWidth 8)) := by
  have hmod : n % 37 < 37 := Nat.mod_lt _ (by omega)
  have hcalc : (BitVec.ofNat 8 (n % 37)).toNat = n % 37 := toNat_ofNat_byte (by omega)
  refine .inl (.inr (.inr (.inr (.inr (.inl ⟨_, _, ?_, ?_, fun heq => hne ?_, rfl⟩)))))
  · omega
  · rw [setWidth_check]
    exact chkDec_le hchk
  · rw [← hcalc, heq, setWidth_check]

theorem legalRecord_of_decode {s : State} {cs : Bool} {r : Completion} (h : DecodeRecord s cs r) :
    LegalRecord s.cfg r := by
  cases h with
  | tooLong => exact legalRecord_illegalCommand _ (by decide)
  | empty | noData | noCheckSymbol => exact legalRecord_invalidArgument _ (by decide)
  | badData _ hl hk hh hd =>
    obtain ⟨h1, h2⟩ := position_range hl hk
    exact .inl (.inr (.inr (.inl ⟨_, _, h1, h2, hh, hd, rfl⟩)))
  | badCheck hl hk hh hd =>
    obtain ⟨h1, h2⟩ := position_range hl hk
    exact .inl (.inr (.inr (.inr (.inl ⟨_, _, h1, h2, hh, hd, rfl⟩))))
  | mismatch n hchk hne => exact legalRecord_mismatch _ hchk hne
  | value => exact .inr (.inr ⟨_, _, 0, by decide, rfl⟩)
  | checkedValue hl hds hscan hchk hdec heq =>
    exact .inr (.inr ⟨_, _, _, (setWidth_check _).trans_le (chkDec_le hchk), rfl⟩)

/-- No slot of the canonical string holds 0x00 (30_encoding.md R91, R92). -/
theorem encodedString_ne_zero {v : Word} {cs : Bool} {c : Byte} (h : c ∈ encodedString v cs) : c ≠ 0 := by
  rcases List.mem_append.mp h with hd | hck
  · obtain ⟨j, -, rfl⟩ := List.mem_map.mp hd
    exact encSymbol_ne_zero _ ((group_lt v j).trans (by omega))
  · cases cs with
    | false => cases hck
    | true =>
      rw [List.mem_singleton.mp hck]
      exact encSymbol_ne_zero _ (Nat.mod_lt _ (by omega))

/-- The slots of a held string without 0x00 are those that do not read 0x00. -/
theorem holdsString_read_eq_zero_iff {ob : Memory} {str : List Byte} (h : holdsString ob str)
    (hstr : ∀ c ∈ str, c ≠ 0) {j : Nat} (hj : j < 14) : ob.read j = 0 ↔ j < 14 - str.length := by
  obtain ⟨h14, hread, hbelow, -⟩ := h
  refine ⟨fun hzero => ?_, hbelow j⟩
  by_contra hge
  have hk : j - (14 - str.length) < str.length := by omega
  have hsym := hread _ hk
  rw [Nat.add_sub_cancel' (not_lt.mp hge), hzero] at hsym
  exact hstr _ (List.getElem_mem hk) hsym.symm

theorem legalRecord_encodedString (cfg : Config) (v : Word) (cs : Bool) {st : Nat} (hst : st ≤ 254) :
    LegalRecord cfg (encodedRecord (encodeCore v cs).1 (encodedString v cs).length st) := by
  have hstr := (encodeCore_spec v cs).2
  exact .inr (.inl ⟨_, _, st, List.length_pos_iff.mpr (encodedString_ne_nil v cs), hstr.1, hst, rfl,
    fun j hj => holdsString_read_eq_zero_iff hstr (fun c => encodedString_ne_zero) hj⟩)

/-- The record of every operation is legal: an encode's by its tests, a decode's by what DEC can leave. -/
theorem legalRecord_recordOf (i : Instr) (s : State) : LegalRecord s.cfg (recordOf i s) := by
  cases i with
  | enc cs sg =>
    rw [recordOf, encRecord]
    split_ifs with hneg
    · rw [raise_negValue]
      exact legalRecord_invalidArgument _ (by decide)
    · rw [encodedLength_eq, succeedEncode_eq, (encodeCore_spec s.vin cs).1]
      exact legalRecord_encodedString _ _ _ (by omega)
  | encb cs sg =>
    rw [recordOf, encbRecord]
    split_ifs with hneg hsmall
    · rw [raise_negValue]
      exact legalRecord_invalidArgument _ (by decide)
    · rw [raise_destTooSmall]
      exact legalRecord_bufferTooSmall _
    · have hpos := List.length_pos_iff.mpr (encodedString_ne_nil s.vin cs)
      have hdlen := s.dlen.isLt
      rw [encodedLength_eq, succeedEncode_eq]
      exact legalRecord_encodedString _ _ _ (by omega)
  | dec cs => exact legalRecord_of_decode (recordOf_dec_cases cs s)
  | illegalReservedOp c =>
    rw [recordOf, raise_reservedOp]
    exact legalRecord_illegalCommand _ (by decide)
  | illegalDecSg c | illegalReservedB7 c | illegalReservedB6 c | illegalReservedB5 c
  | illegalReservedB4 c =>
    rw [recordOf, raise_reservedBits]
    exact legalRecord_illegalCommand _ (by decide)

/-- The values STATUS has after a completion (10_state.md R24, 60_exceptions.md R213). -/
def completionStatuses : List Byte := [0x06, 0x46, 0x0A, 0x12, 0x1A, 0x22, 0x2A]

theorem completionStatuses_done : ∀ st ∈ completionStatuses, statusDone st = true := by
  decide

theorem LegalRecord.status_mem {cfg : Config} {r : Completion} (h : LegalRecord cfg r) :
    r.status ∈ completionStatuses := by
  rcases h with hfail | ⟨ob, n, st, -, -, -, rfl, -⟩ | ⟨v, ovf, ck, -, rfl⟩
  · rcases hfail with ⟨_, _, rfl⟩ | rfl | ⟨_, _, _, _, _, _, rfl⟩ | ⟨_, _, _, _, _, _, rfl⟩
      | ⟨_, _, _, _, _, rfl⟩ | ⟨_, _, rfl⟩
    all_goals simp [failedRecord, completionStatuses]
  · simp [encodedRecord, completionStatuses]
  · cases ovf <;> simp [decodedRecord, completionStatuses]

theorem statusDone_recordOf (i : Instr) (s : State) : statusDone (recordOf i s).status = true :=
  completionStatuses_done _ (legalRecord_recordOf i s).status_mem

/-- Settles O31: the record an operation completes with is legal, and its STATUS is a completion's. -/
theorem everyOperationCompletesWithALegalRecord : Obligations.EveryOperationCompletesWithALegalRecord := by
  unfold Obligations.EveryOperationCompletesWithALegalRecord
  exact fun i s => ⟨_, exec_eq i s, statusBusy_recordOf i s, statusDone_recordOf i s,
    legalRecord_recordOf i s⟩

/-! ### Causes and kinds -/

/-- The first three columns of 60_exceptions.md R211: the kind's code that goes with a cause. -/
def CauseHasKind (cause : Byte) (err : BitVec 3) : Prop :=
  (cause.toNat ∈ [1, 2, 3, 4] ↔ err = 1) ∧ (cause = 5 ↔ err = 2) ∧ (cause.toNat ∈ [6, 7] ↔ err = 3)
  ∧ (cause = 8 ↔ err = 4) ∧ (cause.toNat ∈ [9, 10, 11] ↔ err = 5)

theorem causeCode_le (f : Failure) : (causeCode f).toNat ≤ 11 := by
  cases f <;> simp [causeCode]

theorem causeHasKind_failure (f : Failure) : CauseHasKind (causeCode f) (errCode (failureKind f)) := by
  cases f <;> simp [CauseHasKind, causeCode, failureKind, errCode]

theorem causeHasKind_success : CauseHasKind 0 0 := by
  simp [CauseHasKind]

/-- Settles O33: a failure's cause has the failure's kind; a success has neither. -/
theorem causeDeterminesKind : Obligations.CauseDeterminesKind := by
  unfold Obligations.CauseDeterminesKind
  intro i s
  refine ⟨_, exec_eq i s, ?_⟩
  rw [State.complete_status, State.complete_ecause]
  rcases recordOf_cases i s with ⟨f, hf⟩ | hsucc
  · obtain ⟨-, hok, herr, -⟩ := raise_status_fields f
    rw [hf, herr, hok]
    exact ⟨causeCode_le f, iff_of_false (causeCode_ne_zero f) Bool.false_ne_true, causeHasKind_failure f⟩
  · obtain ⟨-, hok, herr, hcause, -⟩ := hsucc.no_error
    rw [hcause, hok, herr]
    exact ⟨by decide, iff_of_true rfl rfl, causeHasKind_success⟩

/-! ### Which operation can fail how -/

/-- DEC's causes: those of either flag, and those of the check symbol (60_exceptions.md R212). -/
theorem ecause_of_decodeRecord {s : State} {cs : Bool} {r : Completion} (h : DecodeRecord s cs r) :
    r.ecause.toNat ∈ [0, 2, 3, 6, 11] ∨ (cs = true ∧ r.ecause.toNat ∈ [4, 7, 8]) := by
  cases h with
  | tooLong | empty | noData | badData | value | checkedValue =>
    exact .inl (by simp [failedRecord, decodedRecord])
  | noCheckSymbol | badCheck | mismatch => exact .inr ⟨rfl, by simp [failedRecord]⟩

/-- Settles O34: an encode by its tests, a decode by the records it can leave, an illegal byte by its class. -/
theorem operationsFailOnlyAsListed : Obligations.OperationsFailOnlyAsListed := by
  unfold Obligations.OperationsFailOnlyAsListed
  intro s
  have hunsigned : ¬ (false = true ∧ s.vin.getLsbD 63 = true) := by simp
  refine ⟨fun cs => ⟨_, exec_enc_of_not_negative cs hunsigned, rfl⟩, fun cs => ?_, fun cs sg => ?_,
    ⟨_, exec_eq _ s, ?_⟩, ⟨_, exec_eq _ s, ?_⟩, fun c hc => ⟨_, exec_eq _ s, ?_⟩⟩
  · by_cases hneg : true = true ∧ s.vin.getLsbD 63 = true
    · exact ⟨_, exec_enc_of_negative cs hneg, by simp [failedRecord]⟩
    · exact ⟨_, exec_enc_of_not_negative cs hneg, by simp [encodedRecord]⟩
  · by_cases hneg : sg = true ∧ s.vin.getLsbD 63 = true
    · exact ⟨_, exec_encb_of_negative cs hneg, by simp [failedRecord]⟩
    · rcases Nat.lt_or_ge s.dlen.toNat 14 with hd | hd
      · exact ⟨_, exec_encb_of_small cs hneg hd, by simp [failedRecord]⟩
      · exact ⟨_, exec_encb_of_fits cs hneg hd, by simp [encodedRecord]⟩
  · exact (ecause_of_decodeRecord (recordOf_dec_cases false s)).resolve_right (by simp)
  · rcases ecause_of_decodeRecord (recordOf_dec_cases true s) with hboth | ⟨-, hcheck⟩
    · exact (by decide : [0, 2, 3, 6, 11] ⊆ [0, 2, 3, 4, 6, 7, 8, 11]) hboth
    · exact (by decide : [4, 7, 8] ⊆ [0, 2, 3, 4, 6, 7, 8, 11]) hcheck
  · cases hi : decode c with
    | enc | encb | dec => simp [hi, Instr.legal] at hc
    | _ => simp [recordOf, raise, causeCode]

end Sys2Proof.Machine
end

section
/-! Three further obligations on one operation: where ENCB's string comes to stand in the destination
(41_encode.md R148), the frame of a completion (60_exceptions.md R213) and the block after it (R217); and
the relations of the symbol tables (30_encoding.md R95). -/

namespace Sys2Proof.Machine

/-- Once moved to its start the string stands in the destination's last slots (70_reset_and_hazards.md R259). -/
theorem destinationSlot_of_holdsString {dlen ostart : Byte} {ob : Memory} {str : List Byte}
    (before : Nat → Byte) (h : holdsString ob str) (hd : 14 ≤ dlen.toNat)
    (hst : ostart.toNat = dlen.toNat - str.length) {k : Nat} (hk : k < str.length) :
    destinationSlot dlen ob before ostart (ostart.toNat + k) = str[k] := by
  obtain ⟨h14, hread, -⟩ := h
  rw [destinationSlot, if_pos (by omega), ← hread k hk]
  congr 1
  simp only [outputSlots]
  omega

theorem destinationSlot_below {dlen ostart : Byte} {d : Nat} (ob : Memory) (before : Nat → Byte)
    (h : d < ostart.toNat) : destinationSlot dlen ob before ostart d = before d := by
  rw [destinationSlot, if_neg (by omega)]

/-- Settles O12: OSTART is DLEN less the string's length, which lies between 1 and 14. -/
theorem startOffsetReachesTheDestinationsEnd : Obligations.StartOffsetReachesTheDestinationsEnd := by
  unfold Obligations.StartOffsetReachesTheDestinationsEnd
  intro cs sg s before hpos hd
  have hdlen := s.dlen.isLt
  obtain ⟨hstr, holen, hostart, -, h1, h14⟩ := encodedRecord_whole s.vin cs
    (st := s.dlen.toNat - (encodedString s.vin cs).length) (by omega)
  refine ⟨_, exec_encb_of_fits cs hpos hd, ?_⟩
  rw [State.complete_olen, State.complete_ostart, State.complete_obuf]
  rw [holen] at h1 h14 ⊢
  exact ⟨rfl, hostart, by omega, by omega, by omega,
    fun k hk => destinationSlot_of_holdsString before hstr hd hostart hk, by omega,
    fun d => destinationSlot_below _ before⟩

/-- Settles O30: a completion writes result registers alone. -/
theorem completionLeavesOperandsAlone : Obligations.CompletionLeavesOperandsAlone := by
  unfold Obligations.CompletionLeavesOperandsAlone
  exact fun i s => ⟨_, exec_eq i s, rfl, rfl, rfl, rfl, fun _ => rfl, rfl, rfl, rfl, rfl, rfl, rfl⟩

/-- Settles O36: a completion leaves BUSY = 0, and an idle block takes a CMD write. -/
theorem blockIsReadyAfterAnyCompletion : Obligations.BlockIsReadyAfterAnyCompletion := by
  unfold Obligations.BlockIsReadyAfterAnyCompletion
  exact fun i s c rest => ⟨_, exec_eq i s, statusBusy_recordOf i s,
    hostStep_commandWrite c rest (statusBusy_recordOf i s)⟩

/-! ### The symbol tables -/

theorem chkRows_codes_perm : (chkRows.map Prod.fst).Perm enc37 := by
  decide

/-- CHKDEC is valid for the codes of ENC37 and no other. -/
theorem chkDec_isSome_iff (c : Byte) : (chkDec c).isSome = true ↔ c ∈ enc37 := by
  rw [← chkRows_codes_perm.mem_iff, chkDec]
  simp [List.lookup_isSome_iff]

/-- Settles O17: each decode table gives the encode table's symbols their values, and CHKDEC's codes are
ENC37's. -/
theorem decodeTablesInvertTheEncodeTable : Obligations.DecodeTablesInvertTheEncodeTable := by
  unfold Obligations.DecodeTablesInvertTheEncodeTable
  exact ⟨by decide, by decide, dataDec_encSymbol, chkDec_encSymbol, chkDec_isSome_iff, by decide, by decide⟩

end Sys2Proof.Machine
end

section
/-! Whose turn it is and what the step then is (10_state.md R46, 20_memory.md R72). -/

namespace Sys2Proof.Machine

theorem hostCanMove_iff {s : State} : s.hostCanMove = true ↔ s.script ≠ [] := by
  simp [State.hostCanMove]

theorem nextAgent_host_turn {s : State} {rest : List Agent} (hs : s.script ≠ [])
    (ht : s.turns = .host :: rest) : nextAgent s = some .host := by
  simp [nextAgent, ht, hostCanMove_iff.mpr hs]

theorem nextAgent_engine_turn {s : State} {rest : List Agent} (hb : s.busy = true)
    (ht : s.turns = .engine :: rest) : nextAgent s = some .engine := by
  simp [nextAgent, ht, hb]

theorem nextAgent_busy_silent {s : State} (hb : s.busy = true) (hs : s.script = []) :
    nextAgent s = some .engine := by
  cases ha : nextAgent s with
  | none => exact absurd ha (nextAgent_busy hb)
  | some a =>
    cases a with
    | engine => rfl
    | host => exact absurd hs (hostCanMove_iff.mp (nextAgent_host ha))

theorem nextAgent_idle_silent {s : State} (hb : s.busy = false) (hs : s.script = []) :
    nextAgent s = none := by
  cases ha : nextAgent s with
  | none => rfl
  | some a =>
    cases a with
    | engine => exact absurd ((nextAgent_engine ha).symm.trans hb) (by decide)
    | host => exact absurd hs (hostCanMove_iff.mp (nextAgent_host ha))

/-- Settles O7: each case of the schedule. -/
theorem scheduleChoosesTheAgent : Obligations.ScheduleChoosesTheAgent := by
  unfold Obligations.ScheduleChoosesTheAgent
  exact fun s => ⟨nextAgent_engine, nextAgent_busy, fun _ _ => nextAgent_host_turn,
    fun _ => nextAgent_engine_turn, nextAgent_busy_silent, nextAgent_busy_nil,
    fun hb hs => nextAgent_idle hb (hostCanMove_iff.mpr hs), nextAgent_idle_silent⟩

/-- Settles O5: the step's three cases, and CMD's byte decodes to the operation it encodes. -/
theorem stepRunsTheLatchedOperation : Obligations.StepRunsTheLatchedOperation := by
  unfold Obligations.StepRunsTheLatchedOperation
  refine fun s => ⟨fun i hwf hcmd ha => ?_, step_engine, step_host, step_none⟩
  have hdec : decode s.cmd = i := by rw [hcmd, decode_encode hwf]
  rw [step_engine ha, hdec]
  rfl

/-- Settles O6: the placed command is running and the schedule begins with ENGINE. -/
theorem placedCommandRunsNext : Obligations.PlacedCommandRunsNext := by
  unfold Obligations.PlacedCommandRunsNext
  intro s c
  have hplaced : s.withFetchWord 8 c.toNat
      = { s with cmd := c, status := busyStatus, turns := .engine :: s.turns } := by
    rw [State.withFetchWord, Nat.mod_eq_of_lt c.isLt, BitVec.ofNat_toNat, BitVec.setWidth_eq]
  have hengine : nextAgent (s.withFetchWord 8 c.toNat) = some .engine :=
    nextAgent_engine_turn (State.busy_startCommand s c) (State.withFetchWord_turns s 8 c.toNat)
  rw [step_engine hengine, hplaced]
  rfl

end Sys2Proof.Machine
end

section
/-! Two further HOST accesses: the read of a result while an operation runs (10_state.md R45) and the poll of
WAIT (30_encoding.md R107). -/

namespace Sys2Proof.Machine

theorem unspecifiedValue_lt (a : HostAddr) (n : Nat) :
    (unspecifiedValue a n).toNat < 2 ^ elementWidth a := by
  rw [unspecifiedValue, BitVec.toNat_ofNat]
  exact (Nat.mod_le _ _).trans_lt (Nat.mod_lt _ (Nat.two_pow_pos _))

theorem hostStep_rd_unspecified {s : State} {a : HostAddr} {rest : List HostStep}
    (hs : s.script = .rd a :: rest) (he : addressExists s.cfg a = true)
    (hu : readIsUnspecified s a = true) :
    hostStep s = .next { s with
      script := rest, seen := (a, unspecifiedValue a s.draws) :: s.seen, draws := s.draws + 1 } := by
  rw [hostStep_rd hs he]
  simp [State.hostRead, State.withScript, readValue, hu]

/-- Of the nine values of STATUS only 0x01 has BUSY set (10_state.md R24). -/
theorem status_of_busy :
    ∀ st : Byte, legalStatus st = true → statusBusy st = true → st = 0x01 := by
  decide

/-- The result addresses of R45 are listed ones, and reads of them are unspecified while BUSY = 1. -/
theorem result_address {a : HostAddr} (cfg : Config)
    (h : a ∈ [.reg .vout, .reg .ostart, .reg .olen, .reg .epos, .reg .echr, .reg .ckcalc, .reg .cksym,
      .reg .ecause] ∨ ∃ i, i < 14 ∧ a = .obuf i) :
    isResult a = true ∧ addressExists cfg a = true := by
  cases a with
  | reg r => cases r <;> simp_all [isResult, addressExists]
  | ibuf i => simp at h
  | obuf i => simp_all [isResult, addressExists]

theorem readIsUnspecified_status (s : State) : readIsUnspecified s (.reg .status) = false :=
  readIsUnspecified_eq_false_iff.mpr (.inr rfl)

/-- Settles O42: a result read draws the next free value, and STATUS and CMD are read as they stand. -/
theorem busyResultReadIsUnspecified : Obligations.BusyResultReadIsUnspecified := by
  unfold Obligations.BusyResultReadIsUnspecified
  obtain ⟨hread, -⟩ := readReturnsTheStoredValue
  refine fun s rest hb => ⟨fun a ha => ⟨unspecifiedValue_lt a _, ?_⟩, fun hst => ?_,
    hread _ (.reg .cmd) rest rfl rfl (.inr rfl)⟩
  · obtain ⟨hres, he⟩ := result_address s.cfg ha
    exact hostStep_rd_unspecified rfl he (Bool.and_eq_true_iff.mpr ⟨hb, hres⟩)
  · rw [hread _ (.reg .status) rest rfl rfl (.inr rfl), storedValue, status_of_busy s.status hst hb]
    rfl

/-- Settles O45: a WAIT step is a read of STATUS, which is never unspecified. -/
theorem waitPollsUntilDone : Obligations.WaitPollsUntilDone := by
  unfold Obligations.WaitPollsUntilDone
  intro s rest hs
  have hu := readIsUnspecified_status s
  have hv : readValue s (.reg .status) = s.status.setWidth 64 := by rw [readValue, hu]; rfl
  have he : addressExists s.cfg (.reg .status) = true := rfl
  simp only [hostStep, hs, readThen, he, if_true, hv, setWidth_byte, hostRead_specified hu]
  rfl

end Sys2Proof.Machine
end

section
/-! What one step does to the block, said once: HOST's side of the state is left out, and each whole-machine rule
about registers and buffers follows from the few effects a step can have. -/

namespace Sys2Proof.Machine

/-! ### The block without HOST's side -/

/-- The state with HOST's side and the schedule left out: the block and its parameters (10_state.md R20). -/
def State.block (s : State) : State := { s with script := [], seen := [], turns := [], draws := 0 }

@[simp] theorem State.block_popTurn (s : State) : s.popTurn.block = s.block := rfl
@[simp] theorem State.block_withScript (s : State) (p : List HostStep) :
    (s.withScript p).block = s.block := rfl
@[simp] theorem State.block_hostRead (s : State) (a : HostAddr) : (s.hostRead a).block = s.block := rfl
@[simp] theorem State.block_complete (s : State) (r : Completion) :
    (s.complete r).block = s.block.complete r := rfl

/-- A write changes nothing of HOST's side. -/
theorem block_idleWrite (s : State) (v : Word) (a : HostAddr) :
    (s.idleWrite v a).block = s.block.idleWrite v a := by
  cases a with
  | reg r => cases r <;> rfl
  | ibuf i => rfl
  | obuf i => rfl

/-- An operation reads no part of HOST's side (00_scope.md R7). -/
@[simp] theorem recordOf_block (i : Instr) (s : State) : recordOf i s.block = recordOf i s :=
  recordOf_congr i rfl rfl rfl rfl rfl

/-- What is a function of the block alone is alike on two states that differ in HOST's side only. -/
theorem eq_of_block {α : Type} {f : State → α} (hf : ∀ s, f s.block = f s) {s t : State}
    (h : t.block = s.block) : f t = f s := by
  rw [← hf t, h, hf]

section
variable {s t : State} (h : t.block = s.block)
include h

theorem cmd_of_block : t.cmd = s.cmd := eq_of_block (fun _ => rfl) h
theorem status_of_block : t.status = s.status := eq_of_block (fun _ => rfl) h
theorem vin_of_block : t.vin = s.vin := eq_of_block (fun _ => rfl) h
theorem dlen_of_block : t.dlen = s.dlen := eq_of_block (fun _ => rfl) h
theorem ilen_of_block : t.ilen = s.ilen := eq_of_block (fun _ => rfl) h
theorem ibuf_of_block : t.ibuf = s.ibuf := eq_of_block (fun _ => rfl) h
theorem obuf_of_block : t.obuf = s.obuf := eq_of_block (fun _ => rfl) h
theorem cfg_of_block : t.cfg = s.cfg := eq_of_block (fun _ => rfl) h
theorem results_of_block : t.results = s.results := eq_of_block (fun _ => rfl) h
theorem busy_of_block : t.busy = s.busy := eq_of_block (fun _ => rfl) h
theorem recordOf_of_block (i : Instr) : recordOf i t = recordOf i s := eq_of_block (recordOf_block i) h

theorem operands_of_block :
    t.cmd = s.cmd ∧ t.vin = s.vin ∧ t.dlen = s.dlen ∧ t.ilen = s.ilen ∧ t.ibuf = s.ibuf :=
  ⟨cmd_of_block h, vin_of_block h, dlen_of_block h, ilen_of_block h, ibuf_of_block h⟩

end

/-! ### The effects of a step -/

/-- The operand registers and IBUF replaced, everything else kept. -/
def State.withOperands (s : State) (vin : Word) (dlen ilen : Byte) (ibuf : Memory) : State :=
  { s with vin := vin, dlen := dlen, ilen := ilen, ibuf := ibuf }

/-- What a step can do to the block. -/
inductive StepEffect (s t : State) : Prop where
  | unchanged (hblock : t.block = s.block)
  /-- ENGINE's completion of the operation in CMD (10_state.md R46). -/
  | completion (hbusy : s.busy = true)
      (hblock : t.block = (s.complete (recordOf (decode s.cmd) s)).block)
  /-- An accepted CMD write (10_state.md R42). -/
  | start (v : Word) (hidle : s.busy = false) (hwrite : s.writesCommand v)
      (hblock : t.block = (s.startCommand (v.setWidth 8)).block)
  /-- An accepted write of an operand register or an IBUF slot (10_state.md R41). -/
  | operand (vin : Word) (dlen ilen : Byte) (ibuf : Memory) (hidle : s.busy = false)
      (hwf : s.ibuf.wf = true → ibuf.wf = true)
      (hin : s.ibuf.below s.cfg.lmax = true → ibuf.below s.cfg.lmax = true)
      (hblock : t.block = (s.withOperands vin dlen ilen ibuf).block)
  /-- The reset input (10_state.md R47). -/
  | reset (rest : List HostStep) (hhost : nextAgent s = some .host) (hscript : s.script = .rst :: rest)
      (heq : t = s.popTurn.blockReset.withScript rest)

/-- An accepted write starts an operation, replaces an operand, or is ignored. -/
theorem stepEffect_of_write {s t : State} {a : HostAddr} {v : Word} (hidle : s.busy = false)
    (he : addressExists s.cfg a = true) (hcmd : a = .reg .cmd → s.writesCommand v)
    (hblock : t.block = (s.idleWrite v a).block) : StepEffect s t := by
  rcases idleWrite_cases s v a with ⟨rfl, hw⟩ | ⟨rfl, hw⟩ | ⟨rfl, hw⟩ | ⟨rfl, hw⟩ | ⟨i, rfl, hw⟩ | hw
  all_goals rw [hw] at hblock
  · exact .start v hidle (hcmd rfl) hblock
  · exact .operand v s.dlen s.ilen s.ibuf hidle id id hblock
  · exact .operand s.vin _ s.ilen s.ibuf hidle id id hblock
  · exact .operand s.vin s.dlen _ s.ibuf hidle id id hblock
  · exact .operand s.vin s.dlen s.ilen _ hidle Memory.write_wf
      (fun h => Memory.write_below h (of_decide_eq_true he)) hblock
  · exact .unchanged hblock

theorem stepEffect_of_hostStep {s t : State} (hhost : nextAgent s = some .host)
    (h : hostStep s.popTurn = .next t) : StepEffect s t := by
  rcases hostStep_cases h with ⟨-, rfl⟩ | ⟨a, p, -, rfl⟩ | ⟨a, v, rest, hitem, he, -, rfl⟩ | ⟨rest, hs, rfl⟩
  · exact .unchanged rfl
  · exact .unchanged rfl
  · cases hb : s.busy with
    | true =>
      rw [hostWrite_busy (by exact hb)]
      exact .unchanged rfl
    | false =>
      rw [hostWrite_idle (by exact hb)]
      refine stepEffect_of_write hb he ?_ (v := v) (by simp [block_idleWrite])
      rintro rfl
      rcases hitem with hs | ⟨a', seen, hs, hseen⟩
      · exact .inl ⟨rest, hs⟩
      · exact .inr ⟨rest, a', seen, hs, hseen⟩
  · exact .reset rest hhost hs rfl

/-- Everything a step can do. -/
theorem stepEffect_of_step {s t : State} (h : step s = .next t) : StepEffect s t := by
  cases ha : nextAgent s with
  | none =>
    rw [step_none ha] at h
    cases h
    exact .unchanged rfl
  | some a =>
    cases a with
    | host => exact stepEffect_of_hostStep ha (step_host ha ▸ h)
    | engine =>
      rw [step_engine ha, exec_next_iff] at h
      refine .completion (nextAgent_engine ha) ?_
      rw [h, ← recordOf_block, State.block_popTurn, recordOf_block]
      rfl

end Sys2Proof.Machine
end

section
/-! The whole-machine rules that hold of every step, each from the effects a step can have. -/

namespace Sys2Proof.Machine

/-! ### The shape of the state -/

theorem shape_of_block {s t : State} (h : t.block = s.block) (hs : s.Shape) : t.Shape where
  cfg := by rw [cfg_of_block h]; exact hs.cfg
  ibufWf := by rw [ibuf_of_block h]; exact hs.ibufWf
  ibufIn := by rw [ibuf_of_block h, cfg_of_block h]; exact hs.ibufIn
  obufWf := by rw [obuf_of_block h]; exact hs.obufWf
  obufIn := by rw [obuf_of_block h]; exact hs.obufIn
  status := by rw [status_of_block h]; exact hs.status

theorem completionStatuses_legal : ∀ st ∈ completionStatuses, legalStatus st = true := by
  decide

/-- A completion leaves OBUF empty or with the canonical string (60_exceptions.md R213). -/
theorem recordOf_obuf (i : Instr) (s : State) :
    (recordOf i s).obuf.wf = true ∧ (recordOf i s).obuf.below 14 = true := by
  have hcases := recordOf_cases i s
  generalize recordOf i s = r at hcases ⊢
  rcases hcases with ⟨f, rfl⟩ | hsucc
  · exact ⟨rfl, rfl⟩
  · cases hsucc with
    | enc cs | encb cs =>
      obtain ⟨-, -, -, hwf, hbelow⟩ := (encodeCore_spec s.vin cs).2
      exact ⟨hwf, hbelow⟩
    | dec | decCheck => exact ⟨rfl, rfl⟩

theorem shape_complete {s : State} (h : s.Shape) (i : Instr) : (s.complete (recordOf i s)).Shape where
  cfg := h.cfg
  ibufWf := h.ibufWf
  ibufIn := h.ibufIn
  obufWf := (recordOf_obuf i s).1
  obufIn := (recordOf_obuf i s).2
  status := completionStatuses_legal _ (legalRecord_recordOf i s).status_mem

theorem shape_startCommand {s : State} (h : s.Shape) (c : Byte) : (s.startCommand c).Shape where
  cfg := h.cfg
  ibufWf := h.ibufWf
  ibufIn := h.ibufIn
  obufWf := h.obufWf
  obufIn := h.obufIn
  status := by rw [State.startCommand_status]; decide

theorem shape_withOperands {s : State} (h : s.Shape) {ibuf : Memory} (hwf : ibuf.wf = true)
    (hin : ibuf.below s.cfg.lmax = true) (vin : Word) (dlen ilen : Byte) :
    (s.withOperands vin dlen ilen ibuf).Shape where
  cfg := h.cfg
  ibufWf := hwf
  ibufIn := hin
  obufWf := h.obufWf
  obufIn := h.obufIn
  status := h.status

theorem shape_blockReset {s : State} (h : s.cfg.wellFormed = true) : s.blockReset.Shape where
  cfg := h
  ibufWf := rfl
  ibufIn := rfl
  obufWf := rfl
  obufIn := rfl
  status := by rw [State.blockReset_status]; decide

/-- Settles O48: each effect of a step keeps the shape. -/
theorem stepKeepsTheShape : Obligations.StepKeepsTheShape := by
  unfold Obligations.StepKeepsTheShape
  intro s t hs hstep
  cases stepEffect_of_step hstep with
  | unchanged hblock => exact shape_of_block hblock hs
  | completion _ hblock => exact shape_of_block hblock (shape_complete hs _)
  | start v _ _ hblock => exact shape_of_block hblock (shape_startCommand hs _)
  | operand vin dlen ilen ibuf _ hwf hin hblock =>
    exact shape_of_block hblock (shape_withOperands hs (hwf hs.ibufWf) (hin hs.ibufIn) vin dlen ilen)
  | reset rest _ _ heq =>
    subst heq
    exact shape_of_block (State.block_withScript _ rest) (shape_blockReset (s := s.popTurn) hs.cfg)

/-- Settles O49: the reset state is its own reset block. -/
theorem resetHasTheShape : Obligations.ResetHasTheShape := by
  unfold Obligations.ResetHasTheShape
  exact shape_blockReset (s := State.reset) (by decide)

/-! ### The completion record -/

theorem recordLegal_of_block {s t : State} (h : t.block = s.block) (hs : s.RecordLegal) : t.RecordLegal := by
  have hblock : t.block.RecordLegal := h ▸ hs
  exact hblock

theorem recordLegal_complete (i : Instr) (s : State) : (s.complete (recordOf i s)).RecordLegal := by
  refine ⟨fun hzero => ?_, fun _ => legalRecord_recordOf i s⟩
  have hdone := statusDone_recordOf i s
  rw [show (recordOf i s).status = 0 from hzero] at hdone
  exact absurd hdone (by decide)

theorem recordLegal_startCommand (s : State) (c : Byte) : (s.startCommand c).RecordLegal := by
  refine ⟨fun hzero => absurd hzero (by rw [State.startCommand_status]; decide), fun hdone => ?_⟩
  exact absurd (show statusDone busyStatus = true from hdone) (by decide)

theorem recordLegal_blockReset (s : State) : s.blockReset.RecordLegal := by
  refine ⟨fun _ => rfl, fun hdone => ?_⟩
  exact absurd (show statusDone 0 = true from hdone) (by decide)

/-- Settles O50: a completion leaves a legal record, a start leaves DONE = 0, the reset the zeros, and nothing
else touches a result. -/
theorem stepKeepsTheRecordLegal : Obligations.StepKeepsTheRecordLegal := by
  unfold Obligations.StepKeepsTheRecordLegal
  intro s t hs hstep
  cases stepEffect_of_step hstep with
  | unchanged hblock => exact recordLegal_of_block hblock hs
  | completion _ hblock => exact recordLegal_of_block hblock (recordLegal_complete _ s)
  | start v _ _ hblock => exact recordLegal_of_block hblock (recordLegal_startCommand s _)
  | operand _ _ _ _ _ _ _ hblock => exact recordLegal_of_block hblock hs
  | reset rest _ _ heq =>
    subst heq
    exact recordLegal_blockReset s.popTurn

/-- Settles O51: the reset state is its own reset block. -/
theorem resetRecordIsLegal : Obligations.ResetRecordIsLegal := by
  unfold Obligations.ResetRecordIsLegal
  exact recordLegal_blockReset State.reset

/-! ### Results, operands, the start of an operation, the parameters -/

/-- Settles O52: while BUSY = 0 there is no completion, and an operand write touches no result. -/
theorem resultsStayUntilTheNextCommand : Obligations.ResultsStayUntilTheNextCommand := by
  unfold Obligations.ResultsStayUntilTheNextCommand
  intro s t hidle hstep
  cases stepEffect_of_step hstep with
  | unchanged hblock => exact .inl (results_of_block hblock)
  | completion hbusy _ => exact absurd (hbusy.symm.trans hidle) (by decide)
  | start v _ hwrite hblock =>
    refine .inr (.inl ⟨v, hwrite, status_of_block hblock, cmd_of_block hblock, ?_⟩)
    rw [results_of_block hblock]
    rfl
  | operand _ _ _ _ _ _ _ hblock => exact .inl (results_of_block hblock :)
  | reset rest _ hscript heq =>
    subst heq
    exact .inr (.inr ⟨rest, hscript, rfl⟩)

/-- Settles O53: while BUSY = 1 no write is accepted, and a completion writes results alone. -/
theorem operandsAreLatchedWhileBusy : Obligations.OperandsAreLatchedWhileBusy := by
  unfold Obligations.OperandsAreLatchedWhileBusy
  intro s t hbusy hstep
  cases stepEffect_of_step hstep with
  | unchanged hblock | completion _ hblock =>
    exact .inl (operands_of_block hblock :)
  | start _ hidle | operand _ _ _ _ hidle => exact absurd (hbusy.symm.trans hidle) (by decide)
  | reset rest hhost hscript heq => exact .inr ⟨hhost, rest, hscript, heq⟩

/-- A step from BUSY = 0 keeps STATUS, clears it by the reset, or is an accepted CMD write. -/
theorem status_of_idle_step {s t : State} (hidle : s.busy = false) (hstep : step s = .next t) :
    t.status = s.status ∨ t.status = 0
    ∨ ∃ v, s.writesCommand v ∧ t.cmd = v.setWidth 8 ∧ t.status = 0x01 := by
  cases stepEffect_of_step hstep with
  | unchanged hblock => exact .inl (status_of_block hblock)
  | completion hbusy _ => exact absurd (hbusy.symm.trans hidle) (by decide)
  | start v _ hwrite hblock =>
    exact .inr (.inr ⟨v, hwrite, cmd_of_block hblock, status_of_block hblock⟩)
  | operand _ _ _ _ _ _ _ hblock => exact .inl (status_of_block hblock :)
  | reset rest _ _ heq =>
    subst heq
    exact .inr (.inl rfl)

/-- Settles O54: a STATUS that is kept or 0 has BUSY = 0. -/
theorem onlyACommandWriteStartsAnOperation : Obligations.OnlyACommandWriteStartsAnOperation := by
  unfold Obligations.OnlyACommandWriteStartsAnOperation
  intro s t hidle hstep
  rcases status_of_idle_step hidle hstep with hst | hst | ⟨v, hwrite, hcmd, hst⟩
  · refine ⟨fun hbusy => ?_, fun hzero => .inl (hst.trans hzero)⟩
    have hkept : t.busy = s.busy := congrArg statusBusy hst
    exact absurd (hbusy.symm.trans (hkept.trans hidle)) (by decide)
  · refine ⟨fun hbusy => ?_, fun _ => .inl hst⟩
    have hclear : t.busy = statusBusy 0 := congrArg statusBusy hst
    exact absurd (hbusy.symm.trans hclear) (by decide)
  · exact ⟨fun _ => ⟨v, hwrite, hcmd, hst⟩, fun _ => .inr ⟨v, hwrite, hst⟩⟩

/-- Settles O55: no effect touches the parameters. -/
theorem parametersNeverChange : Obligations.ParametersNeverChange := by
  unfold Obligations.ParametersNeverChange
  intro s t hstep
  cases stepEffect_of_step hstep with
  | unchanged hblock | completion _ hblock | start _ _ _ hblock | operand _ _ _ _ _ _ _ hblock =>
    exact (cfg_of_block hblock :)
  | reset rest _ _ heq =>
    subst heq
    rfl

end Sys2Proof.Machine
end

section
/-! Plain host programs and the completion of a running operation under every schedule (10_state.md R46,
60_exceptions.md R222). -/

namespace Sys2Proof.Machine

/-! ### A plain program -/

theorem hostStep_of_wr {s : State} {a : HostAddr} {v : Word} {rest : List HostStep}
    (hs : s.script = .wr a v :: rest) (he : addressExists s.cfg a = true) (hv : valueFits a v = true) :
    hostStep s = .next ((s.hostWrite a v).withScript rest) := by
  simp [hostStep, hs, writeThen, he, hv]

/-- A plain program is never refused, and what is left of it after a step is part of it. -/
theorem hostStep_of_plain {s : State} (h : ∀ x ∈ s.script, HostStep.plain s.cfg x = true) :
    ∃ t, hostStep s = .next t ∧ t.script ⊆ s.script := by
  cases hs : s.script with
  | nil => exact ⟨s, by simp [hostStep, hs], by simp [hs]⟩
  | cons x rest =>
    have hx : HostStep.plain s.cfg x = true := h x (by simp [hs])
    have htail : rest ⊆ x :: rest := List.subset_cons_self x rest
    cases x with
    | rd a => exact ⟨_, hostStep_rd hs hx, htail⟩
    | wr a v =>
      obtain ⟨he, hv⟩ := Bool.and_eq_true_iff.mp hx
      exact ⟨_, hostStep_of_wr hs he hv, htail⟩
    | wait =>
      refine ⟨_, waitPollsUntilDone s rest hs, ?_⟩
      dsimp only
      split_ifs
      · exact htail
      · exact List.Subset.refl _
    | rst => exact ⟨_, hostStep_rst hs, htail⟩
    | wrLast | readString | copyOut | ifOk => cases hx

/-- Settles O47: a completion is never refused, and neither is an item of a plain program. -/
theorem plainProgramIsNeverRefused : Obligations.PlainProgramIsNeverRefused := by
  unfold Obligations.PlainProgramIsNeverRefused
  intro s hplain
  have hanswers : ∃ t, step s = .next t ∧ t.script ⊆ s.script := by
    cases ha : nextAgent s with
    | none => exact ⟨s, step_none ha, List.Subset.refl _⟩
    | some a =>
      cases a with
      | engine => exact ⟨_, (step_engine ha).trans (exec_eq _ _), List.Subset.refl _⟩
      | host =>
        rw [step_host ha]
        exact hostStep_of_plain (s := s.popTurn) hplain
  obtain ⟨t, hstep, hsub⟩ := hanswers
  refine ⟨t, hstep, fun x hx => ?_⟩
  rw [parametersNeverChange s t hstep]
  exact hplain x (hsub hx)

/-! ### The completion -/

theorem turns_hostWrite (s : State) (a : HostAddr) (v : Word) : (s.hostWrite a v).turns = s.turns := by
  cases hb : s.busy with
  | true => rw [hostWrite_busy hb]
  | false =>
    rw [hostWrite_idle hb]
    cases a with
    | reg r => cases r <;> rfl
    | ibuf i => rfl
    | obuf i => rfl

theorem turns_hostStep {s t : State} (h : hostStep s = .next t) : t.turns = s.turns := by
  rcases hostStep_cases h with ⟨-, rfl⟩ | ⟨a, p, -, rfl⟩ | ⟨a, v, rest, -, -, -, rfl⟩ | ⟨rest, -, rfl⟩
  · rfl
  · rfl
  · exact turns_hostWrite s a v
  · rfl

/-- A busy block with HOST's steps known to lead to the goal `Q` or to keep `P` reaches `Q` within the schedule:
ENGINE completes at the latest when it is used up (10_state.md R46, log 2). -/
theorem exists_run_of_busy {P Q : State → Prop} (hbusy : ∀ u, P u → u.busy = true)
    (hengine : ∀ u, P u → Q (u.popTurn.complete (recordOf (decode u.cmd) u.popTurn)))
    (hhost : ∀ u, P u → ∃ t, hostStep u.popTurn = .next t ∧ (Q t ∨ P t)) {s : State} (hs : P s) :
    ∃ k t, k ≤ s.turns.length + 1 ∧ runFor k s = .next t ∧ Q t := by
  induction hn : s.turns.length generalizing s with
  | zero =>
    have ha := nextAgent_busy_nil (hbusy s hs) (List.length_eq_zero_iff.mp hn)
    exact ⟨1, _, le_refl 1, runFor_one ((step_engine ha).trans (exec_eq _ _)), hengine s hs⟩
  | succ n ih =>
    cases ha : nextAgent s with
    | none => exact absurd ha (nextAgent_busy (hbusy s hs))
    | some a =>
      cases a with
      | engine =>
        exact ⟨1, _, by omega, runFor_one ((step_engine ha).trans (exec_eq _ _)), hengine s hs⟩
      | host =>
        obtain ⟨t, hstep, hQ | hP⟩ := hhost s hs
        · exact ⟨1, t, by omega, runFor_one ((step_host ha).trans hstep), hQ⟩
        · have hturns : t.turns.length = n := by
            rw [turns_hostStep hstep, State.popTurn_turns, List.length_tail, hn, Nat.add_sub_cancel]
          obtain ⟨k, u, hk, hrun, hQ⟩ := ih hP hturns
          exact ⟨1 + k, u, by omega, runFor_add (runFor_one ((step_host ha).trans hstep)) hrun, hQ⟩

/-- ENGINE completes with the record of the operation and the operands the block holds. -/
theorem block_completion {s u : State} (h : u.block = s.block) :
    (u.popTurn.complete (recordOf (decode u.cmd) u.popTurn)).block
      = (s.complete (recordOf (decode s.cmd) s)).block := by
  have hrec : recordOf (decode u.cmd) u.popTurn = recordOf (decode s.cmd) s := by
    rw [cmd_of_block h]
    exact recordOf_of_block h _
  rw [hrec, State.block_complete, State.block_complete, State.block_popTurn, h]

/-- A running operation under a plain program completes within the schedule, or is reset first. -/
theorem exists_completion_of_plain {s : State} (hb : s.busy = true)
    (hplain : ∀ x ∈ s.script, HostStep.plain s.cfg x = true) :
    ∃ k t, k ≤ s.turns.length + 1 ∧ runFor k s = .next t
      ∧ (t.block = (s.complete (recordOf (decode s.cmd) s)).block
        ∨ (.rst ∈ s.script ∧ t.busy = false)) := by
  refine exists_run_of_busy (P := fun u => u.block = s.block ∧ u.script ⊆ s.script)
    (fun u hu => (busy_of_block hu.1).trans hb) (fun u hu => .inl (block_completion hu.1)) ?_
    ⟨rfl, List.Subset.refl _⟩
  rintro u ⟨hblock, hsub⟩
  have hplain' : ∀ x ∈ u.popTurn.script, HostStep.plain u.popTurn.cfg x = true := by
    rw [show u.popTurn.cfg = s.cfg from cfg_of_block hblock]
    exact fun x hx => hplain x (hsub hx)
  obtain ⟨t, hstep, hsub'⟩ := hostStep_of_plain hplain'
  refine ⟨t, hstep, ?_⟩
  have hbusy : u.popTurn.busy = true := (busy_of_block hblock).trans hb
  rcases hostStep_busy hbusy hstep with ⟨rest, hs⟩ | ⟨p, seen, draws, rfl⟩
  · rw [hostStep_rst hs] at hstep
    cases hstep
    exact .inl (.inr ⟨hsub (by rw [← State.popTurn_script, hs]; exact List.mem_cons_self), by simp⟩)
  · exact .inr ⟨hblock, List.Subset.trans hsub' hsub⟩

/-- Settles O46: without a reset in the program the run ends with the completion, with one it may end there. -/
theorem engineCompletesWithinTheSchedule : Obligations.EngineCompletesWithinTheSchedule := by
  unfold Obligations.EngineCompletesWithinTheSchedule
  intro s hb hplain
  have hidle := statusBusy_recordOf (decode s.cmd) s
  obtain ⟨k, t, hk, hrun, hend⟩ := exists_completion_of_plain hb hplain
  refine ⟨fun hno => ?_, k, t, hk, hrun, ?_⟩
  · have hblock := hend.resolve_right fun h => hno h.1
    exact ⟨k, t, _, hk, hrun, (busy_of_block hblock).trans hidle,
      (congrArg statusDone (status_of_block hblock)).trans (statusDone_recordOf _ _), exec_eq _ s,
      results_of_block hblock, (operands_of_block hblock :)⟩
  · rcases hend with hblock | ⟨-, hreset⟩
    · exact (busy_of_block hblock).trans hidle
    · exact hreset

end Sys2Proof.Machine
end

section
/-! HOST's transactions (30_encoding.md R107, R108), composed of the runs of their parts: an idle write, a string
written to IBUF, a command with its WAIT, a symbol copied. -/

namespace Sys2Proof.Machine

/-- Some run leads from `s` to `t`. -/
def Reaches (s t : State) : Prop := ∃ k, runFor k s = .next t

theorem Reaches.refl (s : State) : Reaches s s := ⟨0, rfl⟩

theorem Reaches.of_step {s t : State} (h : step s = .next t) : Reaches s t := ⟨1, runFor_one h⟩

theorem Reaches.trans {s t u : State} (h : Reaches s t) (h' : Reaches t u) : Reaches s u := by
  obtain ⟨k, hk⟩ := h
  obtain ⟨j, hj⟩ := h'
  exact ⟨k + j, runFor_add hk hj⟩

theorem busy_of_results {s t : State} (h : t.results = s.results) : t.busy = s.busy :=
  congrArg (fun r : Completion => statusBusy r.status) h

/-! ### An idle write -/

theorem reaches_of_wr {s : State} {a : HostAddr} {v : Word} {rest : List HostStep} (hb : s.busy = false)
    (hs : s.script = .wr a v :: rest) (he : addressExists s.cfg a = true) (hv : valueFits a v = true) :
    ∃ t, Reaches s t ∧ t.script = rest ∧ t.block = (s.idleWrite v a).block :=
  ⟨_, .of_step (step_idle_wr hb hs he hv), rfl, by simp [block_idleWrite]⟩

/-! ### A command and its WAIT -/

/-- WAIT polls until the operation has completed. -/
theorem reaches_completion_of_wait {s : State} {rest : List HostStep} (hst : s.status = busyStatus)
    (hs : s.script = .wait :: rest) :
    ∃ t, Reaches s t ∧ t.script = .wait :: rest
      ∧ t.block = (s.complete (recordOf (decode s.cmd) s)).block := by
  have hb : s.busy = true := (congrArg statusBusy hst).trans (by decide)
  have hpoll : ∀ u : State, u.script = .wait :: rest ∧ u.block = s.block → ∃ t,
      hostStep u.popTurn = .next t ∧ (t.script = .wait :: rest ∧ t.block = s.block) := by
    rintro u ⟨hscript, hblock⟩
    have hbusy : ¬ statusDone u.popTurn.status = true := by
      rw [State.popTurn_status, status_of_block hblock, hst]
      decide
    exact ⟨_, waitPollsUntilDone u.popTurn rest hscript, if_neg hbusy, hblock⟩
  obtain ⟨k, t, -, hrun, hscript, hblock⟩ := exists_run_of_busy
    (Q := fun t => t.script = .wait :: rest ∧ t.block = (s.complete (recordOf (decode s.cmd) s)).block)
    (fun u hu => (busy_of_block hu.2).trans hb) (fun u hu => ⟨hu.1, block_completion hu.2⟩)
    (fun u hu => (hpoll u hu).imp fun t ht => ⟨ht.1, .inr ht.2⟩) ⟨hs, rfl⟩
  exact ⟨t, ⟨k, hrun⟩, hscript, hblock⟩

/-- WAIT ends with a poll after the completion. -/
theorem reaches_end_of_wait {s : State} {rest : List HostStep} (hb : s.busy = false)
    (hdone : statusDone s.status = true) (hs : s.script = .wait :: rest) :
    ∃ t, Reaches s t ∧ t.script = rest ∧ t.block = s.block :=
  ⟨_, .of_step ((step_idle hb hs).trans (waitPollsUntilDone s.popTurn rest hs)), if_pos hdone, rfl⟩

/-- `WR REG:0, c ; WAIT` ends with the record of the operation `c` selects on the operands as they are. -/
theorem reaches_of_runCommand {s : State} {c : Byte} {rest : List HostStep} (hb : s.busy = false)
    (hs : s.script = runCommand c ++ rest) :
    ∃ t, Reaches s t ∧ t.script = rest
      ∧ t.block = ((s.startCommand c).complete (recordOf (decode c) s)).block := by
  obtain ⟨t₁, hrun₁, hs₁, hblock₁⟩ := reaches_of_wr hb hs rfl (valueFits_byte rfl c)
  have hstart : t₁.block = (s.startCommand c).block := by rw [hblock₁, State.idleWrite, setWidth_byte]
  obtain ⟨t₂, hrun₂, hs₂, hblock₂⟩ := reaches_completion_of_wait (status_of_block hstart) hs₁
  have hrec : recordOf (decode t₁.cmd) t₁ = recordOf (decode c) s := by
    rw [cmd_of_block hstart, recordOf_of_block hstart]
    exact recordOf_congr _ rfl rfl rfl rfl rfl
  rw [hrec] at hblock₂
  have hb₂ : t₂.busy = false := (busy_of_block hblock₂).trans (statusBusy_recordOf _ _)
  have hdone₂ : statusDone t₂.status = true := by
    rw [status_of_block hblock₂]
    exact statusDone_recordOf _ _
  obtain ⟨t, hrun, hscript, hblock⟩ := reaches_end_of_wait hb₂ hdone₂ hs₂
  refine ⟨t, (hrun₁.trans hrun₂).trans hrun, hscript, ?_⟩
  rw [hblock, hblock₂, State.block_complete, State.block_complete, hstart]

/-- Settles O56: the write of VIN, then the command, whose operation encodes the value written. -/
theorem encTransactionDeliversTheString : Obligations.EncTransactionDeliversTheString := by
  unfold Obligations.EncTransactionDeliversTheString
  intro s cs sg v rest hb hs hpos
  obtain ⟨t₁, hrun₁, hs₁, hblock₁⟩ := reaches_of_wr (a := .reg .vin) hb hs rfl (valueFits_word rfl v)
  have hb₁ : t₁.busy = false := (busy_of_block hblock₁).trans hb
  have hvin : t₁.vin = v := vin_of_block hblock₁
  obtain ⟨t, hrun, hscript, hblock⟩ := reaches_of_runCommand hb₁ hs₁
  have hrec : recordOf (.enc cs sg) t₁ = encodedRecord (encodeCore v cs).1 (encodedString v cs).length
      (14 - (encodedString v cs).length) := by
    rw [recordOf, hvin, encRecord_of_not_negative cs (Bool.eq_false_iff.mpr (isNegative_iff.not.mpr hpos)),
      (encodeCore_spec v cs).1]
  rw [decode_encode rfl] at hblock
  obtain ⟨k, hk⟩ := hrun₁.trans hrun
  exact ⟨k, t, _, hk, hscript, (busy_of_block hblock).trans (statusBusy_recordOf _ _),
    (vin_of_block hblock).trans hvin, (encodeCore_spec v cs).2, (results_of_block hblock).trans hrec⟩

/-! ### A string written to IBUF -/

/-- A string written to IBUF from index `i` on stands there; the slots below `i` and everything else of the
block are as they were. -/
theorem reaches_of_stringWrites {s : State} {i : Nat} {str : List Byte} {rest : List HostStep}
    (hb : s.busy = false) (hwf : s.ibuf.wf = true) (hle : i + str.length ≤ s.cfg.lmax)
    (hs : s.script = stringWrites i str ++ rest) :
    ∃ t, Reaches s t ∧ t.script = rest ∧ t.busy = false ∧ t.cfg = s.cfg
      ∧ (∀ k (h : k < str.length), t.ibuf.read (i + k) = str[k])
      ∧ ∀ j, j < i → t.ibuf.read j = s.ibuf.read j := by
  induction str generalizing s i with
  | nil => exact ⟨s, .refl s, hs, hb, rfl, nofun, fun _ _ => rfl⟩
  | cons c str ih =>
    rw [List.length_cons] at hle
    obtain ⟨t₁, hrun₁, hs₁, hblock₁⟩ := reaches_of_wr (a := .ibuf i) hb hs
      (decide_eq_true (by omega)) (valueFits_byte rfl c)
    have hibuf : t₁.ibuf = s.ibuf.write i c := by
      rw [ibuf_of_block hblock₁, State.idleWrite, setWidth_byte]
    have hcfg : t₁.cfg = s.cfg := (cfg_of_block hblock₁ :)
    obtain ⟨t, hrun, hscript, hbt, hcfgt, hread, hbelow⟩ := ih ((busy_of_block hblock₁).trans hb)
      (by rw [hibuf]; exact Memory.write_wf hwf) (by rw [hcfg]; omega) hs₁
    refine ⟨t, hrun₁.trans hrun, hscript, hbt, hcfgt.trans hcfg, fun k hk => ?_, fun j hj => ?_⟩
    · cases k with
      | zero => exact (hbelow i (by omega)).trans (by rw [hibuf]; exact Memory.read_write_same hwf)
      | succ k =>
        rw [List.getElem_cons_succ, ← hread k (by simpa using hk)]
        congr 1
        omega
    · rw [hbelow j (by omega), hibuf, Memory.read_write_ne (by omega)]

theorem inputChars_of_read {ibuf : Memory} {str : List Byte}
    (h : ∀ k (hk : k < str.length), ibuf.read k = str[k]) : inputChars ibuf str.length = str :=
  List.ext_getElem (by simp [inputChars]) fun k _ hk => by simpa [inputChars] using h k hk

/-- A length below 256 fits ILEN and is read back. -/
theorem valueFits_ofNat {a : HostAddr} {n : Nat} (ha : elementWidth a = 8) (hn : n < 256) :
    valueFits a (BitVec.ofNat 64 n) = true := by
  refine decide_eq_true ?_
  rw [ha, BitVec.toNat_ofNat]
  omega

/-- Settles O57: the string, its length, then the command, whose record DEC gives again on the input it left. -/
theorem decTransactionDecodesTheString : Obligations.DecTransactionDecodesTheString := by
  unfold Obligations.DecTransactionDecodesTheString
  intro s cs str rest hb hwf hlen hlmax hs
  have hs' : s.script = stringWrites 0 str ++ (.wr (.reg .ilen) (BitVec.ofNat 64 str.length)
      :: (runCommand (encode (.dec cs)) ++ rest)) := by
    rw [hs]
    simp [HostStmt.expand, expandDec]
  obtain ⟨t₁, hrun₁, hs₁, hb₁, -, hread, -⟩ := reaches_of_stringWrites hb hwf (by omega) hs'
  obtain ⟨t₂, hrun₂, hs₂, hblock₂⟩ := reaches_of_wr hb₁ hs₁ rfl (valueFits_ofNat rfl (by omega))
  obtain ⟨t, hrun, hscript, hblock⟩ :=
    reaches_of_runCommand ((busy_of_block hblock₂).trans hb₁) hs₂
  rw [decode_encode rfl] at hblock
  obtain ⟨k, hk⟩ := (hrun₁.trans hrun₂).trans hrun
  have hilen : t.ilen = BitVec.ofNat 8 str.length := by
    have hwritten : t₂.ilen = (BitVec.ofNat 64 str.length).setWidth 8 := ilen_of_block hblock₂
    rw [(ilen_of_block hblock :), State.complete_ilen, State.startCommand_ilen, hwritten,
      BitVec.setWidth_ofNat_of_le (by omega)]
  have hibuf : t.ibuf = t₁.ibuf := (ibuf_of_block hblock :).trans (ibuf_of_block hblock₂ :)
  have hresults : t.results = recordOf (.dec cs) t := by
    rw [results_of_block hblock, recordOf_of_block hblock, State.results_complete, recordOf_complete]
    exact recordOf_congr _ rfl rfl rfl rfl rfl
  refine ⟨k, t, hk, hscript, (busy_of_block hblock).trans (statusBusy_recordOf _ _), ?_, ?_, ?_⟩
  · rw [hilen, toNat_ofNat_byte (by omega)]
  · rw [hibuf]
    exact inputChars_of_read fun k hk => by simpa using hread k hk
  · rw [exec_eq, ← hresults, State.complete_results]

/-! ### A string copied from OBUF -/

theorem readValue_idle {s : State} (hb : s.busy = false) (a : HostAddr) :
    readValue s a = storedValue s a := by
  rw [readValue, readIsUnspecified_eq_false_iff.mpr (.inl hb), if_neg Bool.false_ne_true]

theorem reaches_of_rd {s : State} {a : HostAddr} {rest : List HostStep} (hb : s.busy = false)
    (hs : s.script = .rd a :: rest) (he : addressExists s.cfg a = true) :
    ∃ t, Reaches s t ∧ t.script = rest ∧ t.block = s.block ∧ t.seen = (a, storedValue s a) :: s.seen :=
  ⟨_, .of_step (step_idle_rd hb hs he), rfl, rfl,
    congrArg (fun v => (a, v) :: s.seen) (readValue_idle (s := s.popTurn) hb a)⟩

theorem reaches_of_wrLast {s : State} {a a' : HostAddr} {v : Word} {rest : List HostStep}
    {seen : List (HostAddr × Word)} (hb : s.busy = false) (hs : s.script = .wrLast a :: rest)
    (hseen : s.seen = (a', v) :: seen) (he : addressExists s.cfg a = true) (hv : valueFits a v = true) :
    ∃ t, Reaches s t ∧ t.script = rest ∧ t.block = (s.idleWrite v a).block := by
  have hwrite : hostStep s.popTurn = .next ((s.popTurn.hostWrite a v).withScript rest) := by
    simp [hostStep, hs, hseen, writeThen, he, hv]
  rw [hostWrite_idle (by exact hb)] at hwrite
  exact ⟨_, .of_step ((step_idle hb hs).trans hwrite), rfl, by simp [block_idleWrite]⟩

/-- `RD OBUF:i ; WR IBUF:j` of the value read. -/
theorem reaches_of_copySymbol {s : State} {i j : Nat} {rest : List HostStep} (hb : s.busy = false)
    (hi : i < 14) (hj : j < s.cfg.lmax) (hs : s.script = .rd (.obuf i) :: .wrLast (.ibuf j) :: rest) :
    ∃ t, Reaches s t ∧ t.script = rest
      ∧ t.block = { s with ibuf := s.ibuf.write j (s.obuf.read i) }.block := by
  obtain ⟨t₁, hrun₁, hs₁, hblock₁, hseen₁⟩ := reaches_of_rd (a := .obuf i) hb hs (decide_eq_true hi)
  have hj₁ : addressExists t₁.cfg (.ibuf j) = true := by
    rw [cfg_of_block hblock₁]
    exact decide_eq_true hj
  obtain ⟨t, hrun, hscript, hblock⟩ := reaches_of_wrLast ((busy_of_block hblock₁).trans hb) hs₁ hseen₁ hj₁
    (valueFits_byte rfl _)
  refine ⟨t, hrun₁.trans hrun, hscript, ?_⟩
  rw [hblock, block_idleWrite, hblock₁, State.idleWrite, storedValue, setWidth_byte]
  rfl

/-- The first `m` symbols of a string of `n`, copied one by one. -/
theorem reaches_of_copySymbols {s : State} {m n : Nat} {rest : List HostStep} (hb : s.busy = false)
    (hwf : s.ibuf.wf = true) (hm : m ≤ n) (hn : n ≤ 14) (hlmax : 14 ≤ s.cfg.lmax)
    (hs : s.script = ((List.range m).flatMap fun t => [.rd (.obuf (14 - n + t)), .wrLast (.ibuf t)])
      ++ rest) :
    ∃ t, Reaches s t ∧ t.script = rest ∧ t.results = s.results ∧ t.cfg = s.cfg ∧ t.ibuf.wf = true
      ∧ ∀ j, j < m → t.ibuf.read j = s.obuf.read (14 - n + j) := by
  induction m generalizing rest with
  | zero => exact ⟨s, .refl s, hs, rfl, rfl, hwf, nofun⟩
  | succ m ih =>
    rw [List.range_succ, List.flatMap_append, List.append_assoc] at hs
    obtain ⟨t₁, hrun₁, hs₁, hresults₁, hcfg₁, hwf₁, hread₁⟩ := ih (by omega) hs
    have hb₁ : t₁.busy = false := (busy_of_results hresults₁).trans hb
    have hobuf₁ : t₁.obuf = s.obuf := congrArg Completion.obuf hresults₁
    obtain ⟨t, hrun, hscript, hblock⟩ :=
      reaches_of_copySymbol hb₁ (by omega) (by rw [hcfg₁]; omega) hs₁
    have hibuf : t.ibuf = t₁.ibuf.write m (s.obuf.read (14 - n + m)) := by
      rw [ibuf_of_block hblock, hobuf₁]
    refine ⟨t, hrun₁.trans hrun, hscript, (results_of_block hblock :).trans hresults₁,
      (cfg_of_block hblock :).trans hcfg₁, by rw [hibuf]; exact Memory.write_wf hwf₁, fun j hj => ?_⟩
    rw [hibuf]
    rcases Nat.lt_succ_iff_lt_or_eq.mp hj with hlt | rfl
    · rw [Memory.read_write_ne (by omega), hread₁ j hlt]
    · exact Memory.read_write_same hwf₁

/-- COPYOUT begins with a read of OLEN, which gives the length of the string. -/
theorem reaches_of_copyOut {s : State} {rest : List HostStep} (hb : s.busy = false)
    (holen : s.olen.toNat ≤ 14) (hs : s.script = .copyOut :: rest) :
    ∃ t, Reaches s t ∧ t.script = copySteps s.olen.toNat ++ rest ∧ t.block = s.block := by
  have hv : readValue s.popTurn (.reg .olen) = s.olen.setWidth 64 := readValue_idle hb _
  have hn : (s.olen.setWidth 64).toNat = s.olen.toNat := BitVec.toNat_setWidth_of_le (by omega)
  have hp : s.popTurn.script = .copyOut :: rest := hs
  have he : addressExists s.popTurn.cfg (.reg .olen) = true := rfl
  have hstep : hostStep s.popTurn
      = .next ((s.popTurn.hostRead (.reg .olen)).withScript (copySteps s.olen.toNat ++ rest)) := by
    simp only [hostStep, hp, hv, hn, readThen, he, if_true]
    exact if_neg (by omega)
  exact ⟨_, .of_step ((step_idle hb hs).trans hstep), rfl, rfl⟩

/-- Settles O58: the read of OLEN, the symbols one by one, then the write of ILEN. -/
theorem copyOutMovesTheString : Obligations.CopyOutMovesTheString := by
  unfold Obligations.CopyOutMovesTheString
  intro s rest hb hwf holen hlmax hs
  obtain ⟨t₁, hrun₁, hs₁, hblock₁⟩ := reaches_of_copyOut hb holen hs
  rw [copySteps, List.append_assoc] at hs₁
  obtain ⟨t₂, hrun₂, hs₂, hresults₂, -, -, hread₂⟩ := reaches_of_copySymbols
    ((busy_of_block hblock₁).trans hb) (by rw [ibuf_of_block hblock₁]; exact hwf) (le_refl _) holen
    (by rw [cfg_of_block hblock₁]; exact hlmax) hs₁
  have hresults : t₂.results = s.results := hresults₂.trans (results_of_block hblock₁)
  obtain ⟨t, hrun, hscript, hblock⟩ := reaches_of_wr
    ((busy_of_results hresults).trans hb) hs₂ rfl (valueFits_ofNat rfl (by omega))
  obtain ⟨k, hk⟩ := (hrun₁.trans hrun₂).trans hrun
  refine ⟨k, t, hk, hscript, ?_, (results_of_block hblock :).trans hresults, fun j hj => ?_⟩
  · have hwritten : t.ilen = (BitVec.ofNat 64 s.olen.toNat).setWidth 8 := ilen_of_block hblock
    rw [hwritten, BitVec.setWidth_ofNat_of_le (by omega), BitVec.ofNat_toNat, BitVec.setWidth_eq]
  · rw [(ibuf_of_block hblock :)]
    exact (hread₂ j hj).trans (by rw [obuf_of_block hblock₁])

end Sys2Proof.Machine
end
